-- ==== Sys2Proof/Word.lean ====
section
/-! DEFINITION. The two word types of the block: the 32-bit word of the bus and of a command (spec parameter CMD_BITS,
rules R32, R45) and the 12-bit word of BUF, RESULT and the operand fields (spec parameter ELEM_BITS, rules R18, R20, R48). -/

namespace Sys2Proof

/-- A register, bus data word or command word: 32 bits (R21, R32, R45). -/
abbrev Word := BitVec 32

/-- A storage word of 12 bits: a word of BUF, RESULT, or a field element held in the low w bits (R18, R20, R34). -/
abbrev Elem := BitVec 12

end Sys2Proof
end

