-- ==== Sys2Proof/Syntax.lean ====
section
/-! DEFINITION. The nine commands (R46), one constructor per row of spec/opcode_table.json. A command that uses one operand
takes it in field B; the must-be-zero fields are no operands (R47, R48). Numbers that count or index (word size, table index,
degree, coefficient index, word count) are Nat, field elements are 12-bit words (log 16). -/

namespace Sys2Proof

inductive Instr
  /-- NOP (R81). -/
  | nop
  /-- SETW w (R59). -/
  | setw (w : Nat)
  /-- GFEXP i (R60). -/
  | gfexp (i : Nat)
  /-- GFLOG x (R61). -/
  | gflog (x : Elem)
  /-- GFMUL a, b (R62). -/
  | gfmul (a b : Elem)
  /-- GENBLD d (R69). -/
  | genbld (d : Nat)
  /-- GENRD d, j (R70). -/
  | genrd (d j : Nat)
  /-- RSENC k, e (R75). -/
  | rsenc (k e : Nat)
  /-- RSENCP n, e (R76). -/
  | rsencp (n e : Nat)
  deriving DecidableEq, Repr

end Sys2Proof
end

