-- ==== Sys2Proof/WellFormed.lean ====
section
/-! DEFINITION. A command is well formed when each numeric operand fits its 12-bit field (R48). Whether an operand's VALUE is
acceptable in the selected field is a question for the command's own rule, not for the encoding (R47). -/

namespace Sys2Proof

/-- A number that fits an operand field: 0..4095 (R48). -/
def fitsField (n : Nat) : Bool := decide (n < 4096)

/-- Every numeric operand fits its field (R48). A field element is a 12-bit word and always fits. -/
def Instr.wellFormed : Instr → Bool
  | .nop => true
  | .setw w => fitsField w
  | .gfexp i => fitsField i
  | .gflog _ => true
  | .gfmul _ _ => true
  | .genbld d => fitsField d
  | .genrd d j => fitsField d && fitsField j
  | .rsenc k e => fitsField k && fitsField e
  | .rsencp n e => fitsField n && fitsField e

end Sys2Proof
end

