-- ==== Sys2Proof/Decode.lean ====
section
/-! DEFINITION. The command decoder (R45 to R48), total on all 2^32 words and rejecting every illegal word (R47), the encoder
from the same table (R46), the mask and match list of R47, and the assembler notation (R49). -/

namespace Sys2Proof

/-! The fields of the C format (R45). -/

/-- OP, bits [31:24] (R45). -/
def fieldOp (w : Word) : BitVec 8 := w.extractLsb' 24 8

/-- A, bits [23:12] (R45). -/
def fieldA (w : Word) : BitVec 12 := w.extractLsb' 12 12

/-- B, bits [11:0] (R45). -/
def fieldB (w : Word) : BitVec 12 := w.extractLsb' 0 12

/-- A command with one operand: it stands in B, and A must be 0 (R47 (c), R48). -/
def decodeOneOperand (a : BitVec 12) (i : Instr) : Option Instr :=
  if a = 0#12 then some i else none

/-- The opcode map (R46). `none` is an illegal word (R47): an OP outside the nine, or a must-be-zero field that is not zero. -/
def decodeFields (op : BitVec 8) (a b : BitVec 12) : Option Instr :=
  if op = 0x00#8 then (if b = 0#12 then decodeOneOperand a .nop else none)
  else if op = 0x01#8 then decodeOneOperand a (.setw b.toNat)
  else if op = 0x10#8 then decodeOneOperand a (.gfexp b.toNat)
  else if op = 0x11#8 then decodeOneOperand a (.gflog b)
  else if op = 0x12#8 then some (.gfmul a b)
  else if op = 0x20#8 then decodeOneOperand a (.genbld b.toNat)
  else if op = 0x21#8 then some (.genrd a.toNat b.toNat)
  else if op = 0x30#8 then some (.rsenc a.toNat b.toNat)
  else if op = 0x31#8 then some (.rsencp a.toNat b.toNat)
  else none

/-- The decoder of a word written to CMD (R46, R47). -/
def decode (w : Word) : Option Instr :=
  decodeFields (fieldOp w) (fieldA w) (fieldB w)

/-! The encoder. -/

/-- The word OP·2^24 + A·2^12 + B (R45). -/
def commandWord (op a b : Nat) : Word := BitVec.ofNat 32 (op * 2 ^ 24 + a * 2 ^ 12 + b)

/-- The word of each command (R46, column "word ="). -/
def encode : Instr → Word
  | .nop => commandWord 0x00 0 0
  | .setw w => commandWord 0x01 0 w
  | .gfexp i => commandWord 0x10 0 i
  | .gflog x => commandWord 0x11 0 x.toNat
  | .gfmul a b => commandWord 0x12 a.toNat b.toNat
  | .genbld d => commandWord 0x20 0 d
  | .genrd d j => commandWord 0x21 d j
  | .rsenc k e => commandWord 0x30 k e
  | .rsencp n e => commandWord 0x31 n e

/-- One row of R47's mask and match list. -/
structure MaskRow where
  mnemonic : String
  mask : Word
  value : Word
  deriving DecidableEq, Repr

/-- Does a word belong to a row: the word's bits under the mask are the row's (R47). -/
def wordMatches (w : Word) (r : MaskRow) : Bool := w &&& r.mask == r.value

/-- The legal words "in mask/match terms" (R47; spec/opcode_table.json). -/
def maskRows : List MaskRow :=
  [ ⟨"NOP", 0xFFFFFFFF#32, 0x00000000#32⟩,
    ⟨"SETW", 0xFFFFF000#32, 0x01000000#32⟩,
    ⟨"GFEXP", 0xFFFFF000#32, 0x10000000#32⟩,
    ⟨"GFLOG", 0xFFFFF000#32, 0x11000000#32⟩,
    ⟨"GFMUL", 0xFF000000#32, 0x12000000#32⟩,
    ⟨"GENBLD", 0xFFFFF000#32, 0x20000000#32⟩,
    ⟨"GENRD", 0xFF000000#32, 0x21000000#32⟩,
    ⟨"RSENC", 0xFF000000#32, 0x30000000#32⟩,
    ⟨"RSENCP", 0xFF000000#32, 0x31000000#32⟩ ]

/-- A command's mnemonic (R46). -/
def mnemonicOf : Instr → String
  | .nop => "NOP"
  | .setw _ => "SETW"
  | .gfexp _ => "GFEXP"
  | .gflog _ => "GFLOG"
  | .gfmul _ _ => "GFMUL"
  | .genbld _ => "GENBLD"
  | .genrd _ _ => "GENRD"
  | .rsenc _ _ => "RSENC"
  | .rsencp _ _ => "RSENCP"

/-- A command in the spec's assembler notation: mnemonic, then the operands in decimal, A before B (R49). -/
def assembler (i : Instr) : String :=
  match i with
  | .nop => mnemonicOf i
  | .setw b => mnemonicOf i ++ " " ++ toString b
  | .gfexp b => mnemonicOf i ++ " " ++ toString b
  | .gflog b => mnemonicOf i ++ " " ++ toString b.toNat
  | .gfmul a b => mnemonicOf i ++ " " ++ toString a.toNat ++ ", " ++ toString b.toNat
  | .genbld b => mnemonicOf i ++ " " ++ toString b
  | .genrd a b => mnemonicOf i ++ " " ++ toString a ++ ", " ++ toString b
  | .rsenc a b => mnemonicOf i ++ " " ++ toString a ++ ", " ++ toString b
  | .rsencp a b => mnemonicOf i ++ " " ++ toString a ++ ", " ++ toString b

/-- The decoder's reading of an instruction whose bits are `w` as spec/opcode_table.json numbers them. A command is one
32-bit bus data word (R36, R45), so the table's bit i is the word's bit i; bits above `nbits` are 0. -/
def decodeTableWord (nbits w : Nat) : Option Instr :=
  decode (BitVec.ofNat 32 (w % 2 ^ nbits))

end Sys2Proof
end

