-- ==== Sys2Proof/Config.lean ====
section
/-! DEFINITION. What is fixed for the machine (spec/00_scope.md section 5): the five word sizes, their primitive polynomials
and largest degrees, the generator base, the buffer size and the identification value; and the one free value of the spec, the
contents of BUF after a hard reset. -/

namespace Sys2Proof

/-- The supported word sizes w, W_SET = 4, 6, 8, 10, 12 (R6, R15). -/
inductive WordSize
  | w4 | w6 | w8 | w10 | w12
  deriving DecidableEq, Repr

/-- w itself, as a number (R16). -/
def WordSize.bits : WordSize → Nat
  | .w4 => 4
  | .w6 => 6
  | .w8 => 8
  | .w10 => 10
  | .w12 => 12

/-- PRIM(w), the primitive polynomial, bit i the coefficient of x^i (R6, R51). -/
def WordSize.prim : WordSize → Nat
  | .w4 => 0x13
  | .w6 => 0x43
  | .w8 => 0x12D
  | .w10 => 0x409
  | .w12 => 0x1069

/-- SIZE(w) = 2^w, the number of field elements (spec/00_scope.md section 5; conflict C3). -/
def WordSize.size (w : WordSize) : Nat := 2 ^ w.bits

/-- 2^w - 1: the period of the power sequence and the number of entries of each table (R52, R53, R54 (c)). -/
def WordSize.order (w : WordSize) : Nat := w.size - 1

/-- DEG_MAX(w) = 2^w - 2, the largest generator degree and check-word count; also the last index of EXP[w] (R52, R66). -/
def WordSize.degMax (w : WordSize) : Nat := w.size - 2

/-- The admitted values of GEN_BASE, the exponent of the first generator root (R7, R66). -/
inductive GenBase
  | zero | one
  deriving DecidableEq, Repr

/-- GEN_BASE as a number. -/
def GenBase.toNat : GenBase → Nat
  | .zero => 0
  | .one => 1

/-- The default of GEN_BASE: the document's value (R7, R66; conflict C1). A machine carries its own value (`State.genBase`), so
that the laws of the machine hold for both admitted values; `State.reset` takes this one. Log 9. -/
def Config.genBase : GenBase := .zero

/-- BUF_WORDS (R20). -/
def Config.bufWords : Nat := 4096

/-- The content of the ID register (R22). -/
def Config.idValue : Word := 0x52534531#32

/-- FREE VALUE (U1, R29, R120): what BUF[i] holds after a hard reset until it is written: "any value in 0..4095 per word, fixed
but unknown". The first argument counts the hard resets, since each leaves BUF unspecified anew; the second is the index i.
Log 3, safe: nothing constrains it. -/
opaque Config.bufAfterHardReset : Nat → Nat → Elem

end Sys2Proof
end

