-- ==== Sys2Proof/Machine/State.lean ====
section
/-! DEFINITION. The machine's state: the ten pieces of state of R30, the state of the block's pins, the parameter GEN_BASE, and
two fields of the model's own; the reasons a step can stop; the state right after reset (R29, R120). -/

namespace Sys2Proof.Machine

/-- The spec's fault codes by name (R101). A fault is a NEXT state with the latch set (R102), not a stop of the model. -/
inductive FaultCode
  /-- "invalid word size", or no field selected (R104). -/
  | wordsize
  /-- AZ's InvalidInput as raised by encode (R103). -/
  | invalidInput
  /-- AZ's ArithmeticDegenerate; never produced (R78, R105). -/
  | degenerate
  /-- An operand or data word out of range (R106). -/
  | range
  /-- An illegal command word (R107). -/
  | opcode
  deriving DecidableEq, Repr

/-- What the host does at the block's pins (R12, R32, R120, R126). Offsets are relative to the window's base (R31, R39). -/
inductive BusEvent
  /-- BusRead(off), of a stated width in bits (R32). -/
  | read (off : Word) (width : Nat)
  /-- BusWrite(off, v), of a stated width in bits (R32). -/
  | write (off : Word) (width : Nat) (v : Word)
  /-- The reset input rst_n goes low (R120). -/
  | assertReset
  /-- The reset input rst_n goes high (R120). -/
  | releaseReset
  deriving DecidableEq, Repr

/-- The bus port's answer to the last accepted access (R126): nothing yet, a completed write, or the read data (R32). -/
inductive Response
  | idle
  | written
  | data (v : Word)
  deriving DecidableEq, Repr

/-- Why an access is a bus error (R32, R44). -/
inductive BusError
  /-- The access is not 32 bits wide. -/
  | wrongWidth
  /-- The offset is no multiple of 4. -/
  | misaligned
  /-- The offset is not mapped (R39). -/
  | unmapped
  deriving DecidableEq, Repr

/-- The reasons the machine stops with a fault: NONE. Every fault the spec describes is a latch in the state after which the
machine goes on (R100, R102); nobody raises a `Fault`, which is safe and unsafe for no claim. -/
inductive Fault
  deriving DecidableEq, Repr

/-- The reasons a step is refused. -/
inductive Refusal
  /-- Raised by a refused arm of `exec` for a command that has no meaning yet; no arm is refused. Safe. -/
  | notModelled (mnemonic : String)
  /-- Raised by `acceptEvent` for an access that breaks R32: "A model refuses such an access (it has no step)" (R44, U6).
  Safe: nothing is claimed after it. Log 7. -/
  | busError (e : BusError)
  /-- Raised by `acceptEvent` for an access while rst_n is asserted: "Bus accesses during reset are not accepted" (R120, U6).
  Safe. Log 8. -/
  | accessDuringReset
  deriving DecidableEq, Repr

/-- The words of BUF that have been written since the last hard reset (R20, R30): index and 12-bit word, indices strictly
rising. An index that is not listed holds no value of the model's (log 3). -/
abbrev Memory := List (Nat × Elem)

/-- The state. The first ten fields are R30's tuple. -/
structure State where
  /-- WSEL: the selected word size, `none` for the value 0 (R16; log 10). -/
  wsel : Option WordSize
  /-- FAULT (R17). -/
  fault : Bool
  /-- ERR (R17, R101). -/
  err : BitVec 4
  /-- RESULT (R18). -/
  result : Elem
  /-- GENDEG[4] (R19). -/
  gendeg4 : BitVec 12
  /-- GENDEG[6] (R19). -/
  gendeg6 : BitVec 12
  /-- GENDEG[8] (R19). -/
  gendeg8 : BitVec 12
  /-- GENDEG[10] (R19). -/
  gendeg10 : BitVec 12
  /-- GENDEG[12] (R19). -/
  gendeg12 : BitVec 12
  /-- BUF (R20). -/
  buf : Memory
  /-- The reset input rst_n is asserted (R120; log 6). -/
  inReset : Bool
  /-- The bus port's answer to the last accepted access (R126; log 5). -/
  response : Response
  /-- The MODEL's own: the host's events still to come, oldest first (log 1). -/
  pending : List BusEvent
  /-- The MODEL's own: how many times rst_n has been asserted, the argument of the free value of BUF (log 4). -/
  hardResets : Nat
  /-- The parameter GEN_BASE the block is built with (R7, R66, U11; log 9): no hardware state, and nothing changes it. -/
  genBase : GenBase
  deriving DecidableEq, Repr

/-- The state right after a hard reset (R29, R120): every register 0, no word of BUF written, rst_n released, and the
parameter GEN_BASE at its default (R7; log 9). The values of `inReset`, `response`, `pending` and `hardResets` are the model's
(logs 1, 4, 5, 6). -/
def State.reset : State where
  wsel := none
  fault := false
  err := 0#4
  result := 0#12
  gendeg4 := 0#12
  gendeg6 := 0#12
  gendeg8 := 0#12
  gendeg10 := 0#12
  gendeg12 := 0#12
  buf := []
  inReset := false
  response := .idle
  pending := []
  hardResets := 0
  genBase := Config.genBase

/-- The same for a block built with a given GEN_BASE, the argument R7 and U11 ask for. -/
def State.resetFor (base : GenBase) : State := { State.reset with genBase := base }

end Sys2Proof.Machine
end

