-- ==== Sys2Proof/Machine/Flags.lean ====
section
/-! DEFINITION. The block's only flags, the latch FAULT and ERR (R17): the numeric codes, the STATUS word, the output fault_o. -/

namespace Sys2Proof.Machine

/-- The value latched in ERR (R101). -/
def errCode : FaultCode → BitVec 4
  | .wordsize => 1#4
  | .invalidInput => 2#4
  | .degenerate => 3#4
  | .range => 4#4
  | .opcode => 5#4

/-- The 4-bit value of WSEL: the word size in binary, 0 when no field is selected (R16, R24). -/
def wselCode : Option WordSize → BitVec 4
  | none => 0#4
  | some w => BitVec.ofNat 4 w.bits

/-- STATUS: bit 0 FAULT, bits 3:1 zero, bits 7:4 ERR, bits 11:8 WSEL, bits 31:12 zero (R24). -/
def statusWord (s : State) : Word :=
  0#20 ++ wselCode s.wsel ++ s.err ++ 0#3 ++ BitVec.ofBool s.fault

/-- The output fault_o, "a level equal to FAULT at all times" (R110). -/
def faultO (s : State) : Bool := s.fault

end Sys2Proof.Machine
end

