-- ==== Sys2Proof/Machine/Tables.lean ====
section
/-! DEFINITION. The constant tables EXP[w] and LOG[w] (R52, R53) and the field arithmetic on them (R57, R58). The tables are
constants of the block, not state (R15, R55). They are functions here; EXP[w] has the indices 0..2^w-2 and LOG[w] the indices
1..2^w-1, and no rule reads another one (log 13). -/

namespace Sys2Proof.Machine

/-- One doubling: shift left, and xor with PRIM(w) when the value reaches 2^w (R52). -/
def double (w : WordSize) (x : Nat) : Nat :=
  if w.size ≤ x <<< 1 then (x <<< 1) ^^^ w.prim else x <<< 1

/-- The loop of R52 from a running value: `steps` doublings. A value 0 stays 0 under doubling; the test for it changes nothing
and makes an evaluation compute the running value at every turn. -/
def doublings (w : WordSize) : (steps power : Nat) → Nat
  | 0, power => power
  | steps + 1, power => if power = 0 then 0 else doublings w steps (double w power)

/-- EXP[w][i]: the running value x = 1 after i doublings (R52). -/
def expTable (w : WordSize) (i : Nat) : Nat := doublings w i 1

/-- The search for x along the power sequence: `power` is EXP[w][i], `steps` bounds the search. -/
def logSearch (w : WordSize) (x : Nat) : (steps i power : Nat) → Nat
  | 0, i, _ => i
  | steps + 1, i, power => if power = x then i else logSearch w x steps (i + 1) (double w power)

/-- LOG[w][x]: the index i in 0..2^w-2 with EXP[w][i] = x, "the inverse permutation of exp" (R53). -/
def logTable (w : WordSize) (x : Nat) : Nat := logSearch w x w.order 0 1

/-- An entry of EXP[w] as a 12-bit word. -/
def expElem (w : WordSize) (i : Nat) : Elem := BitVec.ofNat 12 (expTable w i)

/-- An entry of LOG[w] as a 12-bit word. -/
def logElem (w : WordSize) (x : Elem) : Elem := BitVec.ofNat 12 (logTable w x.toNat)

/-- Field addition, and subtraction: bitwise xor (R57). -/
def gfAdd (a b : Elem) : Elem := a ^^^ b

/-- Field multiplication by the tables: 0 if either operand is 0, else EXP[(LOG[a] + LOG[b]) mod (2^w - 1)] (R58). -/
def gfMul (w : WordSize) (a b : Elem) : Elem :=
  if a = 0#12 ∨ b = 0#12 then 0#12
  else expElem w ((logTable w a.toNat + logTable w b.toNat) % w.order)

end Sys2Proof.Machine
end

