-- ==== Sys2Proof/Machine/Poly.lean ====
section
/-! DEFINITION. Polynomials over the field, most significant coefficient first (R9), the generator polynomial and its cache
(R63 to R67), the remainder and the check words (R71, R72), and the shift-register form of the same words (R74 (b)). -/

namespace Sys2Proof.Machine

/-- A sequence of coefficients, index 0 the coefficient of the highest power (R9). -/
abbrev Poly := List Elem

/-- zeros(n) (R9). -/
def zeros (n : Nat) : Poly := List.replicate n 0#12

/-- Strip leading zeros, keeping one coefficient; the empty sequence becomes [0] (R63). -/
def polyNorm : Poly → Poly
  | [] => [0#12]
  | [c] => [c]
  | c :: d :: p => if c = 0#12 then polyNorm (d :: p) else c :: d :: p

/-- Pad on the left, the high-order end, to at least n coefficients (R64). -/
def padLeft (n : Nat) (p : Poly) : Poly := zeros (n - p.length) ++ p

/-- Align at the constant terms, xor coefficient by coefficient, normalise; also subtraction (R64). -/
def polyAdd (p q : Poly) : Poly :=
  polyNorm (List.zipWith gfAdd (padLeft q.length p) (padLeft p.length q))

/-- Multiply by the monomial c·x^s (R64). -/
def polyScaleShift (w : WordSize) (p : Poly) (c : Elem) (s : Nat) : Poly :=
  if c = 0#12 then [0#12] else p.map (gfMul w c) ++ zeros s

/-- Add the coefficients ts into the first coefficients of r, position by position. -/
def addInto : Poly → Poly → Poly
  | [], r => r
  | t :: ts, [] => t :: ts
  | t :: ts, c :: r => gfAdd t c :: addInto ts r

/-- The product's coefficients, r[m] the xor of p[i]·q[j] over i + j = m (R65), row by row of the multiplication (log 21). -/
def mulRows (w : WordSize) : Poly → Poly → Poly
  | [], q => zeros (q.length - 1)
  | c :: p, q =>
    match q.map (gfMul w c) with
    | [] => []
    | t :: ts => t :: addInto ts (mulRows w p q)

/-- The polynomial product (R65). -/
def polyMul (w : WordSize) (p q : Poly) : Poly :=
  if p = [0#12] ∨ q = [0#12] then [0#12] else mulRows w p q

/-- gen_poly(w, d) for a given GEN_BASE: each generator is the previous one times (x - EXP[d - 1 + GEN_BASE]) (R66). -/
def genPoly (base : GenBase) (w : WordSize) : Nat → Poly
  | 0 => [1#12]
  | d + 1 => polyMul w (genPoly base w d) [1#12, expElem w (d + base.toNat)]

/-- The cache of a field that holds the degrees 0..n (R19, R67). -/
def cacheUpTo (base : GenBase) (w : WordSize) (n : Nat) : List Poly :=
  (List.range (n + 1)).map (genPoly base w)

/-- `count` turns of the cache loop of R67: append the last polynomial held times [1, EXP[m - 1 + GEN_BASE]], where m is the
number of polynomials held, the degree to be built. -/
def extendCache (base : GenBase) (w : WordSize) : (count : Nat) → List Poly → List Poly
  | 0, cache => cache
  | count + 1, cache =>
    let m := cache.length
    extendCache base w count (cache ++ [polyMul w (cache.getD (m - 1) [1#12]) [1#12, expElem w (m - 1 + base.toNat)]])

/-- The passes of the long division of R71, at most `passes` of them. -/
def divisionPasses (w : WordSize) (g : Poly) : (passes : Nat) → Poly → Poly
  | 0, r => r
  | passes + 1, r =>
    if r = [0#12] ∨ r.length < g.length then r
    else divisionPasses w g passes (polyAdd r (polyScaleShift w g (r.headD 0#12) (r.length - g.length)))

/-- poly_rem(w, a, g) (R71); `none` where R71 raises ERR_DEGENERATE, for a zero divisor. "The loop ends after at most
len(a) - len(g) + 1 passes". -/
def polyRem (w : WordSize) (a g : Poly) : Option Poly :=
  if g = [0#12] then none else some (divisionPasses w g (a.length + 1 - g.length) a)

/-- Multiplication by x^e of a normalised polynomial (R72). -/
def timesXPow (e : Nat) (info : Poly) : Poly :=
  if info = [0#12] then [0#12] else info ++ zeros e

/-- The remainder's coefficients with zeros on the left, the high-order end, to exactly e words (R72). -/
def padRemainder (e : Nat) (r : Poly) : Poly :=
  let rr := if r = [0#12] then [] else r
  zeros (e - rr.length) ++ rr

/-- rs_check(w, data, e) (R72); `none` only where R71 would raise ERR_DEGENERATE. -/
def rsCheck (base : GenBase) (w : WordSize) (data : Poly) (e : Nat) : Option Poly :=
  (polyRem w (timesXPow e (polyNorm data)) (genPoly base w e)).map (padRemainder e)

/-- One data word enters the shift register (R74 (b)): `gs` are the generator's coefficients g[1..e]. -/
def shiftStep (w : WordSize) (gs reg : Poly) (x : Elem) : Poly :=
  let fb := gfAdd x (reg.headD 0#12)
  List.zipWith gfAdd (reg.tail ++ [0#12]) (gs.map (gfMul w fb))

/-- The shift-register form of the check words (R74 (b)). -/
def shiftRegister (base : GenBase) (w : WordSize) (data : Poly) (e : Nat) : Poly :=
  data.foldl (shiftStep w (genPoly base w e).tail) (zeros e)

/-- The value of a polynomial at x, by Horner's rule (R66, R73: "evaluates to 0 at each of the roots"). -/
def polyEval (w : WordSize) (p : Poly) (x : Elem) : Elem :=
  p.foldl (fun acc c => gfAdd (gfMul w acc x) c) 0#12

end Sys2Proof.Machine
end

