-- ==== Sys2Proof/Machine/Ops.lean ====
section
/-! DEFINITION. The named operations on the state: reading and writing BUF, the generator counters, raising a fault and the
two resets that leave the faulted condition, and the operation `build` on the generator cache. -/

namespace Sys2Proof.Machine

/-- The outcome of a step or of a command. -/
abbrev Outcome := Host.Outcome State Fault Refusal

/-! BUF as a list of the written words. -/

/-- What an index that is not listed holds: no value, since BUF is unspecified after a hard reset (R29, U1; log 3). -/
def Memory.unlisted : Option Elem := none

/-- The word a list holds for an index. -/
def Memory.read? : Memory → Nat → Option Elem
  | [], _ => Memory.unlisted
  | (j, v) :: m, i => if j = i then some v else Memory.read? m i

/-- Store a word, keeping the indices strictly rising. -/
def Memory.write : Memory → Nat → Elem → Memory
  | [], i, v => [(i, v)]
  | (j, u) :: m, i, v =>
    if i < j then (i, v) :: (j, u) :: m
    else if i = j then (i, v) :: m
    else (j, u) :: Memory.write m i v

/-- The indices rise strictly from at least `lo` and stay below 4096. -/
def Memory.wfFrom : Nat → Memory → Bool
  | _, [] => true
  | lo, (i, _) :: m => decide (lo ≤ i) && decide (i < Config.bufWords) && Memory.wfFrom (i + 1) m

/-- The canonical form: indices strictly rising and below BUF_WORDS (R20). No entry equals what an unlisted index holds, since
that is no value. -/
def Memory.wf (m : Memory) : Bool := Memory.wfFrom 0 m

/-- BUF[i] (R10, R20). A word not written since the last hard reset reads as a free value, "fixed but unknown" (U1; log 3). -/
def bufRead (s : State) (i : Nat) : Elem :=
  (Memory.read? s.buf i).getD (Config.bufAfterHardReset s.hardResets i)

/-- BUF[i] <- v (R10). -/
def bufWrite (s : State) (i : Nat) (v : Elem) : State :=
  { s with buf := Memory.write s.buf i v }

/-- MemRead(i, n): the sequence BUF[i], …, BUF[i+n-1] (R10). -/
def memRead (s : State) (i n : Nat) : List Elem :=
  (List.range n).map (fun j => bufRead s (i + j))

/-- MemWrite(i, n, vs) with n the length of vs: BUF[i+j] <- vs[j], in the order of j (R10). -/
def memWrite (s : State) (i : Nat) : List Elem → State
  | [] => s
  | v :: vs => memWrite (bufWrite s i v) (i + 1) vs

/-! The generator counters. -/

/-- GENDEG[w] (R19). -/
def gendeg (s : State) : WordSize → BitVec 12
  | .w4 => s.gendeg4
  | .w6 => s.gendeg6
  | .w8 => s.gendeg8
  | .w10 => s.gendeg10
  | .w12 => s.gendeg12

/-- GENDEG[w] <- d (R19). -/
def setGendeg (s : State) (w : WordSize) (d : BitVec 12) : State :=
  match w with
  | .w4 => { s with gendeg4 := d }
  | .w6 => { s with gendeg6 := d }
  | .w8 => { s with gendeg8 := d }
  | .w10 => { s with gendeg10 := d }
  | .w12 => { s with gendeg12 := d }

/-- The state after build(w, d): "its only architectural effect is GENDEG[w] <- max(GENDEG[w], d)" (R67). Its result is
gen_poly(w, d) always, so the polynomial is computed where it is used (R28, log 12). -/
def build (s : State) (w : WordSize) (d : Nat) : State :=
  if (gendeg s w).toNat < d then setGendeg s w (BitVec.ofNat 12 d) else s

/-! Faults and resets. -/

/-- raise Fault(code): FAULT <- 1, ERR <- code, and nothing else (R102). -/
def raiseFault (s : State) (code : FaultCode) : State :=
  { s with fault := true, err := errCode code }

/-- A command that ends with a fault (R100, R102): a next state. -/
def faulted (s : State) (code : FaultCode) : Outcome := .next (raiseFault s code)

/-- The soft reset, CTRL.SRST: everything but BUF to its reset value (R121). Faults have no return operation; this and the hard
reset are the only ways out of the faulted condition (R108, R111). -/
def softReset (s : State) : State :=
  { s with
    wsel := none, fault := false, err := 0#4, result := 0#12
    gendeg4 := 0#12, gendeg6 := 0#12, gendeg8 := 0#12, gendeg10 := 0#12, gendeg12 := 0#12 }

/-- rst_n goes low: the state of R120's table, BUF unspecified anew, the port's answer dropped; GEN_BASE is how the
block is built and stays. The host's events still to
come are the host's and stay (log 19). -/
def hardReset (s : State) : State :=
  { softReset s with buf := [], inReset := true, response := .idle, hardResets := s.hardResets + 1 }

/-- rst_n goes high: the reset state is left as it is (R120). -/
def releaseReset (s : State) : State := { s with inReset := false }

end Sys2Proof.Machine
end

