-- ==== Sys2Proof/Machine/Operands.lean ====
section
/-! DEFINITION. The operand forms and their checks: the word size operand of SETW (R59), the selected field that all other
computing commands need (R104), the range tests of R106, and the block of data words an encode reads (R75, R77). -/

namespace Sys2Proof.Machine

/-- The word size an operand names, if it names one (R16, R59). -/
def wordSizeOf (n : Nat) : Option WordSize :=
  if n = 4 then some .w4
  else if n = 6 then some .w6
  else if n = 8 then some .w8
  else if n = 10 then some .w10
  else if n = 12 then some .w12
  else none

/-- "if WSEL = 0 then raise Fault(ERR_WORDSIZE); let w = WSEL" (R60 to R62, R69, R70, R75, R76, R104 (b)). -/
def withField (s : State) (k : WordSize → Outcome) : Outcome :=
  match s.wsel with
  | none => faulted s .wordsize
  | some w => k w

/-- A 12-bit value that is an element of the field: at most 2^w - 1 (R51, R77). -/
def inField (w : WordSize) (v : Elem) : Bool := decide (v.toNat < w.size)

/-- Is some data word BUF[i], i < k, no element of the field (R75 check 5, R77)? -/
def dataOutOfRange (s : State) (w : WordSize) (k : Nat) : Bool :=
  (memRead s 0 k).any (fun v => !inField w v)

end Sys2Proof.Machine
end

