-- ==== Sys2Proof/Machine/Control.lean ====
section
/-! DEFINITION. NOP (R81) and SETW (R59). The two steps common to every command, ignored while FAULT = 1 (R108) and the pattern
check (R47), stand in the CMD write (Machine/Bus.lean; log 14). -/

namespace Sys2Proof.Machine

/-- NOP: no effect, no field needed (R81). -/
def execNop (s : State) : Outcome := .next s

/-- SETW w: WSEL <- w, or ERR_WORDSIZE (R59). -/
def execSetw (w : Nat) (s : State) : Outcome :=
  match wordSizeOf w with
  | none => faulted s .wordsize
  | some ws => .next { s with wsel := some ws }

end Sys2Proof.Machine
end

