-- ==== Sys2Proof/Machine/Encode.lean ====
section
/-! DEFINITION. The encode commands RSENC (R75) and RSENCP (R76). -/

namespace Sys2Proof.Machine

/-- Checks 3, 4 and 5 of R75 and its effect: the check words, for the block's GEN_BASE, of BUF[0..k-1] go to BUF[k..k+e-1]. The
`none` branch is R71's test for a zero divisor, which never succeeds (R78; log 15). -/
def encodeBlock (w : WordSize) (k e : Nat) (s : State) : Outcome :=
  if w.degMax < e then faulted s .range
  else if Config.bufWords < k + e then faulted s .range
  else if dataOutOfRange s w k then faulted s .range
  else
    match rsCheck s.genBase w (memRead s 0 k) e with
    | none => faulted s .degenerate
    | some c => .next (memWrite (build s w e) k c)

/-- RSENC k, e (R75). -/
def execRsenc (k e : Nat) (s : State) : Outcome :=
  withField s fun w =>
    if e = 0 ∨ k = 0 then faulted s .invalidInput
    else encodeBlock w k e s

/-- RSENCP n, e: the e tail words of the n-word block are neither read nor checked (R76). -/
def execRsencp (n e : Nat) (s : State) : Outcome :=
  withField s fun w =>
    if e = 0 ∨ n ≤ e then faulted s .invalidInput
    else encodeBlock w (n - e) e s

end Sys2Proof.Machine
end

