-- ==== Sys2Proof/Machine/Field.lean ====
section
/-! DEFINITION. The field commands GFEXP (R60), GFLOG (R61), GFMUL (R62). -/

namespace Sys2Proof.Machine

/-- GFEXP i: RESULT <- EXP[w][i], for i at most 2^w - 2 (R60). -/
def execGfexp (i : Nat) (s : State) : Outcome :=
  withField s fun w =>
    if w.degMax < i then faulted s .range
    else .next { s with result := expElem w i }

/-- GFLOG x: RESULT <- LOG[w][x], for x in 1..2^w-1 (R61). -/
def execGflog (x : Elem) (s : State) : Outcome :=
  withField s fun w =>
    if x = 0#12 ∨ !inField w x then faulted s .range
    else .next { s with result := logElem w x }

/-- GFMUL a, b: RESULT <- gf_mul(w, a, b), for elements a and b of the field (R62). -/
def execGfmul (a b : Elem) (s : State) : Outcome :=
  withField s fun w =>
    if !inField w a ∨ !inField w b then faulted s .range
    else .next { s with result := gfMul w a b }

end Sys2Proof.Machine
end

