-- ==== Sys2Proof/Machine/Generator.lean ====
section
/-! DEFINITION. The generator commands GENBLD (R69) and GENRD (R70). -/

namespace Sys2Proof.Machine

/-- GENBLD d: build(w, d), the result discarded (R69). -/
def execGenbld (d : Nat) (s : State) : Outcome :=
  withField s fun w =>
    if w.degMax < d then faulted s .range
    else .next (build s w d)

/-- GENRD d, j: RESULT <- build(w, d)[j], j counted from the leading coefficient (R70), the generator that of the block's
GEN_BASE (R66). -/
def execGenrd (d j : Nat) (s : State) : Outcome :=
  withField s fun w =>
    if w.degMax < d then faulted s .range
    else if d < j then faulted s .range
    else .next { build s w d with result := (genPoly s.genBase w d).getD j 0#12 }

end Sys2Proof.Machine
end

