-- ==== Sys2Proof/Machine/Dispatch.lean ====
section
/-! DEFINITION. One arm per command (R46). -/

namespace Sys2Proof.Machine

def exec (i : Instr) (s : State) : Host.Outcome State Fault Refusal :=
  match i with
  | .nop => Sys2Proof.Machine.execNop s
  | .setw w => Sys2Proof.Machine.execSetw w s
  | .gfexp n => Sys2Proof.Machine.execGfexp n s
  | .gflog x => Sys2Proof.Machine.execGflog x s
  | .gfmul a b => Sys2Proof.Machine.execGfmul a b s
  | .genbld d => Sys2Proof.Machine.execGenbld d s
  | .genrd d j => Sys2Proof.Machine.execGenrd d j s
  | .rsenc k e => Sys2Proof.Machine.execRsenc k e s
  | .rsencp n e => Sys2Proof.Machine.execRsencp n e s

end Sys2Proof.Machine
end

