-- ==== Sys2Proof/Machine/Bus.lean ====
section
/-! DEFINITION. The register and buffer window (R21 to R27, R31 to R33, R37 to R39, R44), the CMD write that runs a command
(R23, R40, R108, R47), the reset input (R120), and the host's notation for accesses (R36, R50). -/

namespace Sys2Proof.Machine

/-- A mapped location of the window (R21, R39). -/
inductive Location
  | id | cmd | status | result | gendeg | ctrl
  | buf (i : Nat)
  deriving DecidableEq, Repr

/-- The location at an offset that is a multiple of 4, if one is mapped there (R21, R39). -/
def locate (off : Nat) : Option Location :=
  if off = 0x0000 then some .id
  else if off = 0x0004 then some .cmd
  else if off = 0x0008 then some .status
  else if off = 0x000C then some .result
  else if off = 0x0010 then some .gendeg
  else if off = 0x0014 then some .ctrl
  else if 0x4000 ≤ off ∧ off < 0x8000 then some (.buf ((off - 0x4000) / 4))
  else none

/-- What an access names, or why it is a bus error (R32, R37, R44). Which of several reasons is named is the model's choice
and no behaviour (log 7). -/
def target (off : Word) (width : Nat) : Except BusError Location :=
  if width ≠ 32 then .error .wrongWidth
  else if off.toNat % 4 ≠ 0 then .error .misaligned
  else
    match locate off.toNat with
    | none => .error .unmapped
    | some l => .ok l

/-- The GENDEG register: the selected field's counter, 0 with no field selected (R26). -/
def gendegRegister (s : State) : BitVec 12 :=
  match s.wsel with
  | none => 0#12
  | some w => gendeg s w

/-- The word a location reads as (R22 to R27, R33). -/
def readLocation (s : State) : Location → Word
  | .id => Config.idValue
  | .cmd => 0#32
  | .status => statusWord s
  | .result => s.result.setWidth 32
  | .gendeg => (gendegRegister s).setWidth 32
  | .ctrl => 0#32
  | .buf i => (bufRead s i).setWidth 32

/-- A write to CMD: ignored while FAULT = 1 (R108); an illegal word is the fault ERR_OPCODE (R107); any other word is executed
to completion (R23, R40). -/
def commandWrite (v : Word) (s : State) : Outcome :=
  if s.fault then .next s
  else
    match Sys2Proof.decode v with
    | none => faulted s .opcode
    | some i => exec i s

/-- A write to CTRL: bit 0 is SRST, bits 31:1 are ignored; obeyed faulted or not (R27, R121). -/
def controlWrite (v : Word) (s : State) : State :=
  if v.getLsbD 0 then softReset s else s

/-- A write to a location (R38): CMD and CTRL act, BUF stores v[11:0] (R33), the others ignore it. -/
def writeLocation (v : Word) (s : State) : Location → Outcome
  | .cmd => commandWrite v s
  | .ctrl => .next (controlWrite v s)
  | .buf i => .next (bufWrite s i (v.setWidth 12))
  | .id | .status | .result | .gendeg => .next s

/-- The block accepts one event of the host (R12, R40): each takes full effect before the next. -/
def acceptEvent (s : State) : BusEvent → Outcome
  | .assertReset => .next (hardReset s)
  | .releaseReset => .next (releaseReset s)
  | .read off width =>
    if s.inReset then .refused .accessDuringReset
    else
      match target off width with
      | .error e => .refused (.busError e)
      | .ok l => .next { s with response := .data (readLocation s l) }
  | .write off width v =>
    if s.inReset then .refused .accessDuringReset
    else
      match target off width with
      | .error e => .refused (.busError e)
      | .ok l => writeLocation v { s with response := .written } l

/-- One step: the oldest event the host has in store; none, and the block, which has no activity of its own, stays as it is
(R12; logs 1, 2). -/
def hostStep (s : State) : Outcome :=
  match s.pending with
  | [] => .next s
  | e :: rest => acceptEvent { s with pending := rest } e

/-- The host's next event is a 32-bit write of a command word to CMD, with the reset input released (logs 1, 6). -/
def withCommand (s : State) (v : Word) : State :=
  { s with inReset := false, pending := .write 0x0004#32 32 v :: s.pending }

/-! The host's notation. -/

/-- WBUF i, v (R50). -/
def wbuf (i : Nat) (v : Word) : BusEvent := .write (BitVec.ofNat 32 (0x4000 + 4 * i)) 32 v

/-- RBUF i (R50). -/
def rbuf (i : Nat) : BusEvent := .read (BitVec.ofNat 32 (0x4000 + 4 * i)) 32

/-- The offset of a location (R21, R39). -/
def offsetOf : Location → Word
  | .id => 0x0000#32
  | .cmd => 0x0004#32
  | .status => 0x0008#32
  | .result => 0x000C#32
  | .gendeg => 0x0010#32
  | .ctrl => 0x0014#32
  | .buf i => BitVec.ofNat 32 (0x4000 + 4 * i)

/-- RREG name (R50). -/
def rreg (l : Location) : BusEvent := .read (offsetOf l) 32

/-- SRST (R50, R82). -/
def srst : BusEvent := .write 0x0014#32 32 1#32

/-- A command line: BusWrite(0x0004, word) with the word of R46 (R50). -/
def command (i : Instr) : BusEvent := .write 0x0004#32 32 (Sys2Proof.encode i)

/-- WBUF i, v0; WBUF i+1, v1; … -/
def wbufs (i : Nat) : List Word → List BusEvent
  | [] => []
  | v :: vs => wbuf i v :: wbufs (i + 1) vs

/-- ENCODE w, [d0, …, d(k-1)], e (R50). -/
def encodeMacro (w : Nat) (data : List Word) (e : Nat) : List BusEvent :=
  command (.setw w) :: (wbufs 0 data ++ [command (.rsenc data.length e)])

/-- The byte lane b = 0..3 of a word, bits [8b+7:8b], on a byte-addressed bus a platform may put before the block (R36; log 20). -/
def byteLane (v : Word) (b : Nat) : BitVec 8 := v.extractLsb' (8 * b) 8

end Sys2Proof.Machine
end

