-- ==== Sys2Proof/Machine/Step.lean ====
section
/-! DEFINITION. One step of the machine, and the host's next command. -/

namespace Sys2Proof.Machine

/-- One step is one event of the host (R12, R40). -/
def step (s : State) : Host.Outcome State Fault Refusal := hostStep s

/-- The state in which the host's very next access writes the command word to CMD (R13, R23; log 1). The block fetches nothing:
this stands for the host's write. FAULT is left alone, so that in a faulted state the word is ignored (R108). -/
def State.withFetchWord (s : State) (nbits w : Nat) : State :=
  withCommand s (BitVec.ofNat 32 (w % 2 ^ nbits))

end Sys2Proof.Machine
end

