-- ==== Sys2Proof/Safety.lean ====
section
/-! DEFINITION. The terms the claims use: the invariant every step keeps, and the fault a command is due by the table of R109. -/

namespace Sys2Proof.Machine

/-- What holds of every state the block can be in. -/
structure Invariant (s : State) : Prop where
  /-- "ERR ≠ 0 exactly when FAULT = 1" (R17). -/
  latch : s.fault = true ↔ s.err ≠ 0#4
  /-- Code 3 is reserved and codes 6..15 are never produced (R101, R105, U4). -/
  code : s.err = 0#4 ∨ s.err = 1#4 ∨ s.err = 2#4 ∨ s.err = 4#4 ∨ s.err = 5#4
  /-- GENDEG[w] is in 0..DEG_MAX(w) (R19). -/
  degree : ∀ w : WordSize, (gendeg s w).toNat ≤ w.degMax
  /-- With no field selected since reset, nothing has been looked up or built (R16, R18, R19, R29). -/
  unselected : s.wsel = none → s.result = 0#12 ∧ ∀ w : WordSize, gendeg s w = 0#12
  /-- BUF keeps its canonical form (R20). -/
  memory : Memory.wf s.buf = true
  /-- While rst_n is asserted the state is the reset state (R120). -/
  held : s.inReset = true → softReset s = s ∧ s.buf = []

/-- The state after a fault with a numeric code of R101: "FAULT <- 1, ERR <- code" (R102). -/
def latched (s : State) (code : BitVec 4) : State := { s with fault := true, err := code }

/-- The state after GENDEG[w] <- max(GENDEG[w], d) (R67). -/
def raisedTo (s : State) (w : WordSize) (d : Nat) : State :=
  setGendeg s w (BitVec.ofNat 12 (max (gendeg s w).toNat d))

/-- WSEL as a number: 0 with no field selected (R16). -/
def wselValue (s : State) : Nat :=
  match s.wsel with
  | none => 0
  | some w => w.bits

/-- The state with an access taken from the store and answered. -/
def answered (s : State) (rest : List BusEvent) (r : Response) : State :=
  { s with pending := rest, response := r }

/-- The two events that reset the block: rst_n asserted (R120), and the 32-bit write of a word with bit 0 set to CTRL (R121). -/
def isResetEvent : BusEvent → Bool
  | .assertReset => true
  | .write off width v => off == 0x0014#32 && width == 32 && v.getLsbD 0
  | .read _ _ | .releaseReset => false

/-- An offset the map of R39 names. -/
def isMapped (off : Nat) : Prop :=
  off = 0x0000 ∨ off = 0x0004 ∨ off = 0x0008 ∨ off = 0x000C ∨ off = 0x0010 ∨ off = 0x0014 ∨ (0x4000 ≤ off ∧ off ≤ 0x7FFC)

/-- The state with every generator cache forgotten (R28). -/
def forgetCaches (s : State) : State :=
  { s with gendeg4 := 0#12, gendeg6 := 0#12, gendeg8 := 0#12, gendeg10 := 0#12, gendeg12 := 0#12 }

/-- Every coefficient or word is an element of the field (R51). -/
def allInField (w : WordSize) (p : Poly) : Prop := ∀ c ∈ p, c.toNat < 2 ^ w.bits

/-- A normalised polynomial: not empty, and led by a non-zero coefficient unless it is [0] (R9). -/
def Normalised (p : Poly) : Prop := p = [0#12] ∨ p.headD 0#12 ≠ 0#12

/-- The product of two elements as polynomials in x modulo PRIM(w), from the bits of b and not from the tables: the xor of a
doubled i times over the bits i set in b (R51). -/
def basisProduct (w : WordSize) (a b : Elem) : Nat :=
  (List.range w.bits).foldl (fun acc i => acc ^^^ (if b.getLsbD i then (double w)^[i] a.toNat else 0)) 0

/-- The fault a command is due, by the first failing step of R109 (steps 2 to 5; steps 0 and 1 concern the CMD write, and step
6 never fails). -/
def dueFault (s : State) : Instr → Option FaultCode
  | .nop => none
  | .setw w => if w = 4 ∨ w = 6 ∨ w = 8 ∨ w = 10 ∨ w = 12 then none else some .wordsize
  | .gfexp i =>
    match s.wsel with
    | none => some .wordsize
    | some w => if i > 2 ^ w.bits - 2 then some .range else none
  | .gflog x =>
    match s.wsel with
    | none => some .wordsize
    | some w => if x.toNat = 0 ∨ x.toNat > 2 ^ w.bits - 1 then some .range else none
  | .gfmul a b =>
    match s.wsel with
    | none => some .wordsize
    | some w => if a.toNat > 2 ^ w.bits - 1 ∨ b.toNat > 2 ^ w.bits - 1 then some .range else none
  | .genbld d =>
    match s.wsel with
    | none => some .wordsize
    | some w => if d > 2 ^ w.bits - 2 then some .range else none
  | .genrd d j =>
    match s.wsel with
    | none => some .wordsize
    | some w => if d > 2 ^ w.bits - 2 ∨ j > d then some .range else none
  | .rsenc k e =>
    match s.wsel with
    | none => some .wordsize
    | some w =>
      if e = 0 ∨ k = 0 then some .invalidInput
      else if e > 2 ^ w.bits - 2 ∨ k + e > 4096 ∨ (memRead s 0 k).any (fun v => decide (v.toNat ≥ 2 ^ w.bits)) then some .range
      else none
  | .rsencp n e =>
    match s.wsel with
    | none => some .wordsize
    | some w =>
      if e = 0 ∨ n ≤ e then some .invalidInput
      else if e > 2 ^ w.bits - 2 ∨ n > 4096 ∨ (memRead s 0 (n - e)).any (fun v => decide (v.toNat ≥ 2 ^ w.bits)) then some .range
      else none

end Sys2Proof.Machine
end

