-- ==== Sys2Proof/Certificates/Slice0/Obligations.lean ====
section
/-! DEFINITION. The statements for the provers. Each docstring names the rules of spec/ it formalises. `latched s n` is s with
FAULT set and ERR = n, the numbers those of R101; an equation `… = .next { s with … }` is also the command's frame: every field
it does not name is unchanged. -/

open Sys2Proof Sys2Proof.Machine

/-! ## The commands -/

/-- R81: the word 0x00000000 is NOP, NOP changes nothing and needs no field; a word with OP 0x00 and another bit set faults
with code 5; NOP and SETW are the only commands that succeed straight after reset. -/
def Obligations.NopDoesNothing : Prop :=
  decode 0x00000000#32 = some .nop ∧
  (∀ s : State, exec .nop s = .next s) ∧
  (∀ (s : State) (v : Word), s.fault = false → fieldOp v = 0#8 → (fieldA v ≠ 0#12 ∨ fieldB v ≠ 0#12) →
    commandWrite v s = .next (latched s 5#4)) ∧
  (∀ (base : GenBase) (i : Instr) (t : State), exec i (State.resetFor base) = .next t → t.fault = false →
    i = .nop ∨ ∃ n, i = .setw n)

/-- R59: SETW w writes WSEL and nothing else for w in 4, 6, 8, 10, 12, and faults with code 1, WSEL kept, for any other. -/
def Obligations.SetwSelectsTheField : Prop :=
  (∀ n : Nat, n < 4096 → decode (BitVec.ofNat 32 (0x01000000 + n)) = some (.setw n)) ∧
  (∀ (s : State) (w : WordSize), exec (.setw w.bits) s = .next { s with wsel := some w }) ∧
  (∀ (s : State) (n : Nat), n ≠ 4 → n ≠ 6 → n ≠ 8 → n ≠ 10 → n ≠ 12 → exec (.setw n) s = .next (latched s 1#4))

/-- R60: GFEXP i writes EXP[w][i] into RESULT and nothing else for i at most 2^w - 2; it faults with code 1 with no field and
with code 4 beyond; EXP[w][0] is 1, no entry is 0, and the last entry is the inverse of 2. -/
def Obligations.GfexpReadsThePowerTable : Prop :=
  (∀ i : Nat, i < 4096 → decode (BitVec.ofNat 32 (0x10000000 + i)) = some (.gfexp i)) ∧
  (∀ (s : State) (i : Nat), s.wsel = none → exec (.gfexp i) s = .next (latched s 1#4)) ∧
  (∀ (s : State) (w : WordSize) (i : Nat), s.wsel = some w → i > 2 ^ w.bits - 2 →
    exec (.gfexp i) s = .next (latched s 4#4)) ∧
  (∀ (s : State) (w : WordSize) (i : Nat), s.wsel = some w → i ≤ 2 ^ w.bits - 2 →
    exec (.gfexp i) s = .next { s with result := BitVec.ofNat 12 (expTable w i) }) ∧
  (∀ w : WordSize, expTable w 0 = 1 ∧ gfMul w (expElem w (2 ^ w.bits - 2)) 2#12 = 1#12) ∧
  (∀ (w : WordSize) (i : Nat), i ≤ 2 ^ w.bits - 2 → expTable w i ≠ 0 ∧ expTable w i < 2 ^ w.bits)

/-- R61: GFLOG x writes LOG[w][x] into RESULT and nothing else for x in 1..2^w-1; it faults with code 1 with no field and with
code 4 for x = 0 or x beyond; LOG[w][1] is 0, LOG[w][2] is 1, and every result is in 0..2^w-2. -/
def Obligations.GflogReadsTheLogTable : Prop :=
  (∀ x : Elem, decode (BitVec.ofNat 32 (0x11000000 + x.toNat)) = some (.gflog x)) ∧
  (∀ (s : State) (x : Elem), s.wsel = none → exec (.gflog x) s = .next (latched s 1#4)) ∧
  (∀ (s : State) (w : WordSize) (x : Elem), s.wsel = some w → (x = 0#12 ∨ x.toNat > 2 ^ w.bits - 1) →
    exec (.gflog x) s = .next (latched s 4#4)) ∧
  (∀ (s : State) (w : WordSize) (x : Elem), s.wsel = some w → x ≠ 0#12 → x.toNat ≤ 2 ^ w.bits - 1 →
    exec (.gflog x) s = .next { s with result := BitVec.ofNat 12 (logTable w x.toNat) } ∧
      logTable w x.toNat ≤ 2 ^ w.bits - 2) ∧
  (∀ w : WordSize, logTable w 1 = 0 ∧ logTable w 2 = 1)

/-- R62, R58: GFMUL a, b writes the table product into RESULT and nothing else; it faults with code 1 with no field and with
code 4 for an operand of 2^w or more; the product is 0 when an operand is 0, else EXP[(LOG[a] + LOG[b]) mod (2^w - 1)], and b
when a is 1. -/
def Obligations.GfmulMultipliesInTheField : Prop :=
  (∀ a b : Elem, decode (BitVec.ofNat 32 (0x12000000 + a.toNat * 4096 + b.toNat)) = some (.gfmul a b)) ∧
  (∀ (s : State) (a b : Elem), s.wsel = none → exec (.gfmul a b) s = .next (latched s 1#4)) ∧
  (∀ (s : State) (w : WordSize) (a b : Elem), s.wsel = some w → (a.toNat > 2 ^ w.bits - 1 ∨ b.toNat > 2 ^ w.bits - 1) →
    exec (.gfmul a b) s = .next (latched s 4#4)) ∧
  (∀ (s : State) (w : WordSize) (a b : Elem), s.wsel = some w → a.toNat ≤ 2 ^ w.bits - 1 → b.toNat ≤ 2 ^ w.bits - 1 →
    exec (.gfmul a b) s = .next { s with result := gfMul w a b } ∧
      ((a = 0#12 ∨ b = 0#12) → gfMul w a b = 0#12) ∧
      (a ≠ 0#12 → b ≠ 0#12 →
        (gfMul w a b).toNat = expTable w ((logTable w a.toNat + logTable w b.toNat) % (2 ^ w.bits - 1))) ∧
      (a = 1#12 → gfMul w a b = b))

/-- R69: GENBLD d raises GENDEG[w] to d and changes nothing else; it faults with code 1 with no field and with code 4 for
d > 2^w - 2; a degree already held changes nothing. -/
def Obligations.GenbldRaisesTheCounter : Prop :=
  (∀ d : Nat, d < 4096 → decode (BitVec.ofNat 32 (0x20000000 + d)) = some (.genbld d)) ∧
  (∀ (s : State) (d : Nat), s.wsel = none → exec (.genbld d) s = .next (latched s 1#4)) ∧
  (∀ (s : State) (w : WordSize) (d : Nat), s.wsel = some w → d > 2 ^ w.bits - 2 →
    exec (.genbld d) s = .next (latched s 4#4)) ∧
  (∀ (s : State) (w : WordSize) (d : Nat), s.wsel = some w → d ≤ 2 ^ w.bits - 2 →
    exec (.genbld d) s = .next (raisedTo s w d) ∧
      (gendeg (raisedTo s w d) w).toNat = max (gendeg s w).toNat d) ∧
  (∀ (s : State) (w : WordSize) (d : Nat), s.wsel = some w → d ≤ 2 ^ w.bits - 2 → d ≤ (gendeg s w).toNat →
    exec (.genbld d) s = .next s)

/-- R70: GENRD d, j writes coefficient j of the degree-d generator, that of the block's GEN_BASE, into RESULT and raises GENDEG[w] to d, nothing else; it
faults with code 1 with no field and with code 4 for d > 2^w - 2 or j > d; coefficient 0 is 1. -/
def Obligations.GenrdReadsTheGenerator : Prop :=
  (∀ d j : Nat, d < 4096 → j < 4096 → decode (BitVec.ofNat 32 (0x21000000 + d * 4096 + j)) = some (.genrd d j)) ∧
  (∀ (s : State) (d j : Nat), s.wsel = none → exec (.genrd d j) s = .next (latched s 1#4)) ∧
  (∀ (s : State) (w : WordSize) (d j : Nat), s.wsel = some w → (d > 2 ^ w.bits - 2 ∨ j > d) →
    exec (.genrd d j) s = .next (latched s 4#4)) ∧
  (∀ (s : State) (w : WordSize) (d j : Nat), s.wsel = some w → d ≤ 2 ^ w.bits - 2 → j ≤ d →
    ∃ c : Elem, (genPoly s.genBase w d)[j]? = some c ∧
      exec (.genrd d j) s = .next { raisedTo s w d with result := c } ∧ (j = 0 → c = 1#12))

/-- R75: under its five checks RSENC k, e writes the e check words of BUF[0..k-1] to BUF[k..k+e-1], raises GENDEG[w] to e, and
changes nothing else: no other word of BUF and no other field. -/
def Obligations.RsencWritesTheCheckWords : Prop :=
  (∀ k e : Nat, k < 4096 → e < 4096 → decode (BitVec.ofNat 32 (0x30000000 + k * 4096 + e)) = some (.rsenc k e)) ∧
  (∀ (s : State) (w : WordSize) (k e : Nat), s.wsel = some w → e ≠ 0 → k ≠ 0 → e ≤ 2 ^ w.bits - 2 → k + e ≤ 4096 →
    (∀ i < k, (bufRead s i).toNat < 2 ^ w.bits) →
    ∃ (c : Poly) (t : State), rsCheck s.genBase w (memRead s 0 k) e = some c ∧ c.length = e ∧
      exec (.rsenc k e) s = .next t ∧ t = { raisedTo s w e with buf := t.buf } ∧
      (∀ j < e, bufRead t (k + j) = c.getD j 0#12) ∧
      (∀ a : Nat, a < k ∨ k + e ≤ a → bufRead t a = bufRead s a))

/-- R76: under its checks RSENCP n, e writes the e check words of BUF[0..n-e-1] to BUF[n-e..n-1], raises GENDEG[w] to e, and
changes nothing else; with n > e ≥ 1 it is RSENC n-e, e. -/
def Obligations.RsencpWritesTheCheckWords : Prop :=
  (∀ n e : Nat, n < 4096 → e < 4096 → decode (BitVec.ofNat 32 (0x31000000 + n * 4096 + e)) = some (.rsencp n e)) ∧
  (∀ (s : State) (n e : Nat), e ≠ 0 → n > e → exec (.rsencp n e) s = exec (.rsenc (n - e) e) s) ∧
  (∀ (s : State) (w : WordSize) (n e : Nat), s.wsel = some w → e ≠ 0 → n > e → e ≤ 2 ^ w.bits - 2 → n ≤ 4095 →
    (∀ i < n - e, (bufRead s i).toNat < 2 ^ w.bits) →
    ∃ (c : Poly) (t : State), rsCheck s.genBase w (memRead s 0 (n - e)) e = some c ∧ c.length = e ∧
      exec (.rsencp n e) s = .next t ∧ t = { raisedTo s w e with buf := t.buf } ∧
      (∀ j < e, bufRead t (n - e + j) = c.getD j 0#12) ∧
      (∀ a : Nat, a < n - e ∨ n ≤ a → bufRead t a = bufRead s a))

/-- R76, U8: the tail words of the block are not read: whatever a tail word held, RSENCP ends in the same state. -/
def Obligations.RsencpIgnoresTheTail : Prop :=
  ∀ (s : State) (w : WordSize) (n e j : Nat) (v : Elem), s.wsel = some w → e ≠ 0 → n > e → e ≤ 2 ^ w.bits - 2 → n ≤ 4095 →
    Memory.wf s.buf = true → (∀ i < n - e, (bufRead s i).toNat < 2 ^ w.bits) → n - e ≤ j → j < n →
    exec (.rsencp n e) (bufWrite s j v) = exec (.rsencp n e) s

/-- R74 (d): RSENC run twice with the same operands gives the state it gave once. -/
def Obligations.RsencIsIdempotent : Prop :=
  ∀ (s t : State) (k e : Nat), Memory.wf s.buf = true → exec (.rsenc k e) s = .next t → exec (.rsenc k e) t = .next t

/-! ## Faults -/

/-- R104: ERR_WORDSIZE is raised by SETW with an unsupported size and by every computing command while no field is selected. -/
def Obligations.WordsizeFaults : Prop :=
  (∀ (s : State) (n : Nat), n ≠ 4 → n ≠ 6 → n ≠ 8 → n ≠ 10 → n ≠ 12 → exec (.setw n) s = .next (latched s 1#4)) ∧
  (∀ s : State, s.wsel = none →
    (∀ i : Nat, exec (.gfexp i) s = .next (latched s 1#4)) ∧
    (∀ x : Elem, exec (.gflog x) s = .next (latched s 1#4)) ∧
    (∀ a b : Elem, exec (.gfmul a b) s = .next (latched s 1#4)) ∧
    (∀ d : Nat, exec (.genbld d) s = .next (latched s 1#4)) ∧
    (∀ d j : Nat, exec (.genrd d j) s = .next (latched s 1#4)) ∧
    (∀ k e : Nat, exec (.rsenc k e) s = .next (latched s 1#4)) ∧
    (∀ n e : Nat, exec (.rsencp n e) s = .next (latched s 1#4)))

/-- R103: ERR_INVALID_INPUT is raised by RSENC with e = 0 or k = 0 and by RSENCP with e = 0 or n ≤ e. -/
def Obligations.InvalidInputFaults : Prop :=
  (∀ (s : State) (w : WordSize) (k e : Nat), s.wsel = some w → (e = 0 ∨ k = 0) →
    exec (.rsenc k e) s = .next (latched s 2#4)) ∧
  (∀ (s : State) (w : WordSize) (n e : Nat), s.wsel = some w → (e = 0 ∨ n ≤ e) →
    exec (.rsencp n e) s = .next (latched s 2#4))

/-- R106: ERR_RANGE, with w = WSEL ≠ 0 and, for the encode commands, the input test of R109 step 3 passed. -/
def Obligations.RangeFaults : Prop :=
  ∀ (s : State) (w : WordSize), s.wsel = some w →
    (∀ i : Nat, i > 2 ^ w.bits - 2 → exec (.gfexp i) s = .next (latched s 4#4)) ∧
    (∀ x : Elem, (x = 0#12 ∨ x.toNat > 2 ^ w.bits - 1) → exec (.gflog x) s = .next (latched s 4#4)) ∧
    (∀ a b : Elem, (a.toNat > 2 ^ w.bits - 1 ∨ b.toNat > 2 ^ w.bits - 1) →
      exec (.gfmul a b) s = .next (latched s 4#4)) ∧
    (∀ d : Nat, d > 2 ^ w.bits - 2 → exec (.genbld d) s = .next (latched s 4#4)) ∧
    (∀ d j : Nat, (d > 2 ^ w.bits - 2 ∨ j > d) → exec (.genrd d j) s = .next (latched s 4#4)) ∧
    (∀ k e : Nat, e ≠ 0 → k ≠ 0 → (e > 2 ^ w.bits - 2 ∨ k + e > 4096 ∨ ∃ i < k, (bufRead s i).toNat ≥ 2 ^ w.bits) →
      exec (.rsenc k e) s = .next (latched s 4#4)) ∧
    (∀ n e : Nat, e ≠ 0 → n > e →
      (e > 2 ^ w.bits - 2 ∨ n > 4096 ∨ ∃ i < n - e, (bufRead s i).toNat ≥ 2 ^ w.bits) →
      exec (.rsencp n e) s = .next (latched s 4#4))

/-- R47, R107: a word is illegal exactly when its OP is outside the nine or a must-be-zero field is not zero; a legal word
matches exactly one row of the mask and match list, its own command's; an illegal word written to CMD sets FAULT and ERR = 5
and changes nothing else, whatever WSEL is. -/
def Obligations.IllegalWordsFault : Prop :=
  (∀ v : Word, decode v = none ↔
    (fieldOp v ∉ [0x00#8, 0x01#8, 0x10#8, 0x11#8, 0x12#8, 0x20#8, 0x21#8, 0x30#8, 0x31#8]) ∨
    (fieldOp v = 0x00#8 ∧ (fieldA v ≠ 0#12 ∨ fieldB v ≠ 0#12)) ∨
    (fieldOp v ∈ [0x01#8, 0x10#8, 0x11#8, 0x20#8] ∧ fieldA v ≠ 0#12)) ∧
  (∀ v : Word, (maskRows.filter (wordMatches v)).map MaskRow.mnemonic = (decode v).toList.map mnemonicOf) ∧
  (∀ (s : State) (v : Word), s.fault = false → decode v = none → commandWrite v s = .next (latched s 5#4))

/-- R102, with the numbers of R101: the codes are 1 to 5; a command that faults sets FAULT and ERR and changes nothing else. -/
def Obligations.FaultsArePrecise : Prop :=
  (∀ s : State, raiseFault s .wordsize = latched s 1#4 ∧ raiseFault s .invalidInput = latched s 2#4 ∧
    raiseFault s .degenerate = latched s 3#4 ∧ raiseFault s .range = latched s 4#4 ∧
    raiseFault s .opcode = latched s 5#4) ∧
  (∀ (s t : State) (i : Instr), s.fault = false → exec i s = .next t → t.fault = true →
    ∃ code : FaultCode, t = raiseFault s code)

/-- R109: the code latched is that of the first failing step of the fixed order, and a command none of whose steps fails
raises no fault. Step 0 and step 1 are tested on the word, steps 2 to 5 by `dueFault`; step 6 never fails. -/
def Obligations.FirstFailingStepIsLatched : Prop :=
  ∀ (s : State) (v : Word),
    (s.fault = true → commandWrite v s = .next s) ∧
    (s.fault = false → decode v = none → commandWrite v s = .next (raiseFault s .opcode)) ∧
    (∀ i : Instr, s.fault = false → decode v = some i →
      (∀ code : FaultCode, dueFault s i = some code → commandWrite v s = .next (raiseFault s code)) ∧
      (dueFault s i = none → ∃ t : State, commandWrite v s = .next t ∧ t.fault = false ∧ t.err = s.err))

/-- R108: while FAULT = 1 a CMD write changes nothing; buffer and register accesses and the CTRL write work as they do with
FAULT = 0; and only the two resets clear the latch. -/
def Obligations.FaultedBlockIgnoresCommands : Prop :=
  (∀ (s : State) (rest : List BusEvent) (v : Word), s.inReset = false → s.fault = true →
    step { s with pending := .write 0x0004#32 32 v :: rest } = .next (answered s rest .written)) ∧
  (∀ (s : State) (l : Location) (v : Word), s.fault = true → l ≠ .cmd →
    (∃ t : State, writeLocation v s l = .next t ∧
      ∃ u : State, writeLocation v { s with fault := false } l = .next u ∧ t.buf = u.buf ∧ t.wsel = u.wsel ∧
        t.result = u.result ∧ (∀ w : WordSize, gendeg t w = gendeg u w)) ∧
    (l ≠ .status → readLocation s l = readLocation { s with fault := false } l)) ∧
  (∀ (s t : State) (rest : List BusEvent) (e : BusEvent), s.fault = true → isResetEvent e = false →
    step { s with pending := e :: rest } = .next t → t.fault = true ∧ t.err = s.err)

/-- R78, R105: no step latches ERR = 3, and the zero-divisor branch of the division is never taken. -/
def Obligations.DegenerateNeverOccurs : Prop :=
  (∀ (base : GenBase) (w : WordSize) (data : Poly) (e : Nat), rsCheck base w data e ≠ none) ∧
  (∀ s t : State, s.err ≠ 3#4 → step s = .next t → t.err ≠ 3#4)

/-- R100, R113: every command answers a next state, on every state and all operands. -/
def Obligations.EveryCommandRuns : Prop :=
  ∀ (i : Instr) (s : State), ∃ t : State, exec i s = .next t

/-! ## Steps, the window, reset -/

/-- R23, R40: when the host's next access writes a legal word to CMD and the block is not faulted, the step is that command's
meaning, at the state with the access taken and answered. -/
def Obligations.StepRunsTheDecodedCommand : Prop :=
  (∀ (s : State) (rest : List BusEvent) (v : Word) (i : Instr), s.inReset = false → s.fault = false → decode v = some i →
    step { s with pending := .write 0x0004#32 32 v :: rest } = exec i (answered s rest .written)) ∧
  (∀ (s : State) (v : Word) (i : Instr), s.fault = false → decode v = some i →
    step (s.withFetchWord 32 v.toNat) = exec i { s with inReset := false, response := .written })

/-- R22 to R27: what each register reads as, with no effect but the answer. -/
def Obligations.RegisterReads : Prop :=
  ∀ (s : State) (rest : List BusEvent), s.inReset = false →
    step { s with pending := .read 0x0000#32 32 :: rest } = .next (answered s rest (.data 0x52534531#32)) ∧
    step { s with pending := .read 0x0004#32 32 :: rest } = .next (answered s rest (.data 0#32)) ∧
    step { s with pending := .read 0x0008#32 32 :: rest } = .next (answered s rest (.data (statusWord s))) ∧
    step { s with pending := .read 0x000C#32 32 :: rest } = .next (answered s rest (.data (s.result.setWidth 32))) ∧
    (s.wsel = none →
      step { s with pending := .read 0x0010#32 32 :: rest } = .next (answered s rest (.data 0#32))) ∧
    (∀ w : WordSize, s.wsel = some w →
      step { s with pending := .read 0x0010#32 32 :: rest } = .next (answered s rest (.data ((gendeg s w).setWidth 32)))) ∧
    step { s with pending := .read 0x0014#32 32 :: rest } = .next (answered s rest (.data 0#32))

/-- R24: STATUS reads FAULT + 16·ERR + 256·WSEL; reading has no side effect and a write is ignored. -/
def Obligations.StatusLayout : Prop :=
  (∀ (s : State) (rest : List BusEvent), s.inReset = false →
    ∃ v : Word, step { s with pending := .read 0x0008#32 32 :: rest } = .next (answered s rest (.data v)) ∧
      v.toNat = (if s.fault then 1 else 0) + 16 * s.err.toNat + 256 * wselValue s) ∧
  (∀ (s : State) (rest : List BusEvent) (v : Word), s.inReset = false →
    step { s with pending := .write 0x0008#32 32 v :: rest } = .next (answered s rest .written))

/-- R33: for i = 0..4095, in every state, the buffer window reads BUF[i] zero-extended with no side effect, and a write stores
v[11:0] in BUF[i], changing no other word and no other field. -/
def Obligations.BufferWindow : Prop :=
  ∀ (s : State) (rest : List BusEvent) (i : Nat), s.inReset = false → i < 4096 →
    step { s with pending := .read (BitVec.ofNat 32 (0x4000 + 4 * i)) 32 :: rest } =
      .next (answered s rest (.data ((bufRead s i).setWidth 32))) ∧
    ∀ v : Word, ∃ t : State,
      step { s with pending := .write (BitVec.ofNat 32 (0x4000 + 4 * i)) 32 v :: rest } = .next t ∧
      t = { answered s rest .written with buf := t.buf } ∧ bufRead t i = v.setWidth 12 ∧
      ∀ a : Nat, a ≠ i → bufRead t a = bufRead s a

/-- R38: no read has a side effect, and a write to a mapped location other than CMD, CTRL and BUF changes nothing. -/
def Obligations.ReadsHaveNoSideEffect : Prop :=
  (∀ (s t : State) (rest : List BusEvent) (off : Word) (width : Nat),
    step { s with pending := .read off width :: rest } = .next t → t = answered s rest t.response) ∧
  (∀ (s t : State) (rest : List BusEvent) (off : Word) (width : Nat) (v : Word),
    off ≠ 0x0004#32 → off ≠ 0x0014#32 → off.toNat < 0x4000 →
    step { s with pending := .write off width v :: rest } = .next t → t = answered s rest .written)

/-- R32, R37, R44: an access that is not 32 bits wide, misaligned or unmapped is refused, and no other access outside reset is. -/
def Obligations.BusErrorsAreRefused : Prop :=
  ∀ (s : State) (rest : List BusEvent) (off : Word) (width : Nat) (v : Word), s.inReset = false →
    ((width ≠ 32 ∨ off.toNat % 4 ≠ 0 ∨ ¬ isMapped off.toNat) →
      ∃ e : BusError, step { s with pending := .read off width :: rest } = .refused (.busError e) ∧
        step { s with pending := .write off width v :: rest } = .refused (.busError e)) ∧
    (width = 32 → off.toNat % 4 = 0 → isMapped off.toNat →
      (∃ t : State, step { s with pending := .read off width :: rest } = .next t) ∧
        ∃ t : State, step { s with pending := .write off width v :: rest } = .next t)

/-- R121, R27: the write of a word with bit 0 set to CTRL resets everything but BUF, faulted or not; with bit 0 clear it does
nothing; and no event but a reset clears FAULT. -/
def Obligations.SoftResetKeepsTheBuffer : Prop :=
  (∀ (s : State) (rest : List BusEvent) (v : Word), s.inReset = false → v.getLsbD 0 = true →
    step { s with pending := .write 0x0014#32 32 v :: rest } =
      .next { State.reset with
        buf := s.buf, pending := rest, response := .written, hardResets := s.hardResets,
        genBase := s.genBase }) ∧
  (∀ (s : State) (rest : List BusEvent) (v : Word), s.inReset = false → v.getLsbD 0 = false →
    step { s with pending := .write 0x0014#32 32 v :: rest } = .next (answered s rest .written)) ∧
  (∀ (s t : State) (rest : List BusEvent) (e : BusEvent), s.fault = true → isResetEvent e = false →
    step { s with pending := e :: rest } = .next t → t.fault = true)

/-- R120, and the model's choices of logs 3, 4, 5, 6, 8, 9 and 19: asserting rst_n gives the reset registers, leaves GEN_BASE
as built and every BUF word a free value; accesses are refused until it is released; releasing it changes nothing else. -/
def Obligations.HardResetForgetsEverything : Prop :=
  (∀ (s : State) (rest : List BusEvent), ∃ t : State, step { s with pending := .assertReset :: rest } = .next t ∧
    t = { State.reset with
      inReset := true, pending := rest, hardResets := s.hardResets + 1, genBase := s.genBase } ∧
    (∀ i : Nat, bufRead t i = Config.bufAfterHardReset (s.hardResets + 1) i)) ∧
  (∀ (s : State) (rest : List BusEvent) (off : Word) (width : Nat) (v : Word), s.inReset = true →
    step { s with pending := .read off width :: rest } = .refused .accessDuringReset ∧
    step { s with pending := .write off width v :: rest } = .refused .accessDuringReset) ∧
  (∀ (s : State) (rest : List BusEvent), step { s with pending := .releaseReset :: rest } =
    .next { s with pending := rest, inReset := false })

/-- R29, R120 (table): the registers right after reset, fault_o, and what the registers read as. -/
def Obligations.ResetValues : Prop :=
  State.reset.wsel = none ∧ State.reset.fault = false ∧ State.reset.err = 0#4 ∧ State.reset.result = 0#12 ∧
  (∀ w : WordSize, gendeg State.reset w = 0#12) ∧ faultO State.reset = false ∧
  readLocation State.reset .id = 0x52534531#32 ∧ readLocation State.reset .status = 0#32 ∧
  readLocation State.reset .result = 0#32 ∧ readLocation State.reset .gendeg = 0#32 ∧
  readLocation State.reset .cmd = 0#32 ∧ readLocation State.reset .ctrl = 0#32

/-- R50, with R23, R33, R59 and R75: the accesses of ENCODE w, data, e leave the data in BUF[0..k-1] and its check words in
BUF[k..k+e-1], with no fault, from every state that is not faulted and not in reset. -/
def Obligations.EncodeMacroLeavesTheCodeword : Prop :=
  ∀ (s : State) (w : WordSize) (data : List Word) (e : Nat), s.fault = false → s.inReset = false →
    s.pending = encodeMacro w.bits data e → data ≠ [] → e ≠ 0 → e ≤ 2 ^ w.bits - 2 → data.length + e ≤ 4096 →
    (∀ v ∈ data, v.toNat < 2 ^ w.bits) →
    ∃ (t : State) (c : Poly), Host.Core.run Sys2Proof.core (data.length + 2) s = .next t ∧
      rsCheck s.genBase w (data.map (fun v => v.setWidth 12)) e = some c ∧
      t.fault = false ∧ t.pending = [] ∧
      (∀ i < data.length, bufRead t i = (data.getD i 0#32).setWidth 12) ∧
      (∀ j < e, bufRead t (data.length + j) = c.getD j 0#12)

/-! ## Encoding -/

/-- R45, R46, R48: decoding the word of a well-formed command gives the command, every operand at every value. -/
def Obligations.DecodeOfEncode : Prop :=
  ∀ i : Instr, i.wellFormed = true → decode (encode i) = some i

/-- R45 to R47: each word has one meaning: a word that decodes to a command is that command's word, and the command is well
formed. -/
def Obligations.EncodeOfDecode : Prop :=
  ∀ (v : Word) (i : Instr), decode v = some i → i.wellFormed = true ∧ encode i = v

/-- Words of 95_test_vectors.md section 6.1 and the commands they stand for. -/
def Obligations.WordsOfTheEncodingTable : Prop :=
  decode 0x0100000C#32 = some (.setw 12) ∧ decode 0x1000000E#32 = some (.gfexp 14) ∧
  decode 0x11000FFF#32 = some (.gflog 4095#12) ∧ decode 0x1200B00D#32 = some (.gfmul 11#12 13#12) ∧
  decode 0x20000005#32 = some (.genbld 5) ∧ decode 0x21003002#32 = some (.genrd 3 2) ∧
  decode 0x304F0190#32 = some (.rsenc 1264 400) ∧ decode 0x31FFFFFE#32 = some (.rsencp 4095 4094)

/-! ## Whole-machine rules -/

/-- Every step keeps the invariant: R17, R101, R19, R16, R20, R120. -/
def Obligations.StepKeepsTheInvariant : Prop :=
  ∀ s t : State, Invariant s → step s = .next t → Invariant t

/-- The invariant holds at reset, for a block built with either GEN_BASE. -/
def Obligations.ResetMeetsTheInvariant : Prop :=
  Invariant State.reset ∧ ∀ base : GenBase, Invariant (State.resetFor base)

/-- R7, with 00_scope.md section 5 (the form, a field of the state, is log 9's): GEN_BASE is a parameter of the block. No step
changes it, a reset included; GENRD, RSENC and RSENCP are the only commands whose effect it enters; and it does enter theirs:
the generators of degree 1 differ. -/
def Obligations.GenBaseIsAParameter : Prop :=
  (∀ s t : State, step s = .next t → t.genBase = s.genBase) ∧
  (∀ (i : Instr) (s t : State) (base : GenBase), (∀ d j, i ≠ .genrd d j) → (∀ k e, i ≠ .rsenc k e) →
    (∀ n e, i ≠ .rsencp n e) → exec i s = .next t →
    exec i { s with genBase := base } = .next { t with genBase := base }) ∧
  (∀ (s : State) (w : WordSize), s.wsel = some w →
    ∃ t u : State, exec (.genrd 1 1) { s with genBase := .zero } = .next t ∧ t.result = 1#12 ∧
      exec (.genrd 1 1) { s with genBase := .one } = .next u ∧ u.result = 2#12)

/-- 10_state.md section 4, column "written by" (R16, R18, R19, R20): only SETW writes WSEL, only the four look-up commands write
RESULT, only the four building commands write a counter, only the encode commands write BUF, and no command touches the pins
or the model's own fields. -/
def Obligations.WhoWritesWhat : Prop :=
  ∀ (i : Instr) (s t : State), exec i s = .next t →
    (t.wsel ≠ s.wsel → ∃ n, i = .setw n) ∧
    (t.result ≠ s.result → (∃ n, i = .gfexp n) ∨ (∃ x, i = .gflog x) ∨ (∃ a b, i = .gfmul a b) ∨ ∃ d j, i = .genrd d j) ∧
    (∀ w : WordSize, gendeg t w ≠ gendeg s w → s.wsel = some w ∧
      ((∃ d, i = .genbld d) ∨ (∃ d j, i = .genrd d j) ∨ (∃ k e, i = .rsenc k e) ∨ ∃ n e, i = .rsencp n e)) ∧
    (t.buf ≠ s.buf → (∃ k e, i = .rsenc k e) ∨ ∃ n e, i = .rsencp n e) ∧
    t.inReset = s.inReset ∧ t.response = s.response ∧ t.pending = s.pending ∧ t.hardResets = s.hardResets ∧
    t.genBase = s.genBase

/-- R19: a generator counter "never decreases except by reset". -/
def Obligations.CountersNeverDecrease : Prop :=
  ∀ (s t : State) (rest : List BusEvent) (e : BusEvent) (w : WordSize), isResetEvent e = false →
    step { s with pending := e :: rest } = .next t → (gendeg s w).toNat ≤ (gendeg t w).toNat

/-- R28: the caches cannot change any result: two states that differ in the counters only give, under every command, states
that differ in the counters only. -/
def Obligations.CachesAreUnobservable : Prop :=
  ∀ (i : Instr) (s u : State), forgetCaches s = forgetCaches u →
    ∃ t t' : State, exec i s = .next t ∧ exec i u = .next t' ∧ forgetCaches t = forgetCaches t'

/-- R10: BUF[i] <- v gives v at i and leaves every other index alone, and keeps BUF's canonical form; MemWrite the same for a
sequence. -/
def Obligations.BufferReadAfterWrite : Prop :=
  (∀ (s : State) (i a : Nat) (vs : List Elem),
    (∀ j < vs.length, bufRead (memWrite s i vs) (i + j) = vs.getD j 0#12) ∧
    (a < i ∨ i + vs.length ≤ a → bufRead (memWrite s i vs) a = bufRead s a) ∧
    (Memory.wf s.buf = true → i + vs.length ≤ 4096 → Memory.wf (memWrite s i vs).buf = true)) ∧
  (∀ (s : State) (i n j : Nat), j < n → (memRead s i n).getD j 0#12 = bufRead s (i + j) ∧ (memRead s i n).length = n)

/-! ## The field -/

/-- R53: LOG[w] is the inverse permutation of EXP[w], on indices 1..2^w-1 with values 0..2^w-2; LOG[1] = 0, LOG[2] = 1. -/
def Obligations.LogInvertsExp : Prop :=
  ∀ w : WordSize,
    (∀ i : Nat, i ≤ 2 ^ w.bits - 2 → logTable w (expTable w i) = i) ∧
    (∀ x : Nat, 1 ≤ x → x ≤ 2 ^ w.bits - 1 → logTable w x ≤ 2 ^ w.bits - 2 ∧ expTable w (logTable w x) = x) ∧
    logTable w 1 = 0 ∧ logTable w 2 = 1

/-- R54: (a) EXP[w] is a bijection of 0..2^w-2 onto 1..2^w-1; (b) its first entries; (c) its period is exactly 2^w - 1;
(d) inverse of LOG[w]; (e) its last entries. -/
def Obligations.TableProperties : Prop :=
  (∀ w : WordSize,
    (∀ i : Nat, i ≤ 2 ^ w.bits - 2 → 1 ≤ expTable w i ∧ expTable w i ≤ 2 ^ w.bits - 1) ∧
    (∀ i j : Nat, i ≤ 2 ^ w.bits - 2 → j ≤ 2 ^ w.bits - 2 → expTable w i = expTable w j → i = j) ∧
    (∀ x : Nat, 1 ≤ x → x ≤ 2 ^ w.bits - 1 → ∃ i ≤ 2 ^ w.bits - 2, expTable w i = x) ∧
    (∀ i : Nat, i < w.bits → expTable w i = 2 ^ i) ∧ expTable w w.bits = w.prim - 2 ^ w.bits ∧
    (∀ i : Nat, expTable w (i + (2 ^ w.bits - 1)) = expTable w i) ∧
    (∀ x : Nat, 1 ≤ x → x ≤ 2 ^ w.bits - 1 → expTable w (logTable w x) = x) ∧
    (∀ i : Nat, i ≤ 2 ^ w.bits - 2 → logTable w (expTable w i) = i) ∧
    gfMul w (expElem w (2 ^ w.bits - 2)) 2#12 = 1#12) ∧
  expTable .w4 14 = 9 ∧ expTable .w6 62 = 33 ∧ expTable .w8 254 = 150 ∧ expTable .w10 1022 = 516 ∧
  expTable .w12 4094 = 2100

/-- R56: the field laws of gf_add and gf_mul on the elements of each field. -/
def Obligations.FieldLaws : Prop :=
  ∀ (w : WordSize) (a b c : Elem), a.toNat < 2 ^ w.bits → b.toNat < 2 ^ w.bits → c.toNat < 2 ^ w.bits →
    (gfMul w a b).toNat < 2 ^ w.bits ∧ (gfAdd a b).toNat < 2 ^ w.bits ∧
    gfMul w a b = gfMul w b a ∧ gfMul w (gfMul w a b) c = gfMul w a (gfMul w b c) ∧
    gfMul w a (gfAdd b c) = gfAdd (gfMul w a b) (gfMul w a c) ∧
    gfMul w 1#12 a = a ∧ gfMul w 0#12 a = 0#12 ∧ (gfMul w a b = 0#12 → a = 0#12 ∨ b = 0#12)

/-- R51, R58: the table product is the product of polynomials in x modulo PRIM(w), as the representation of R51 defines it. -/
def Obligations.TableProductIsPolynomialProduct : Prop :=
  ∀ (w : WordSize) (a b : Elem), a.toNat < 2 ^ w.bits → b.toNat < 2 ^ w.bits →
    (gfMul w a b).toNat = basisProduct w a b

/-! ## Polynomials and the generator -/

/-- R63: poly_norm removes leading zeros only, and its result is normalised. -/
def Obligations.PolyNormStripsLeadingZeros : Prop :=
  polyNorm [] = [0#12] ∧
  (∀ n : Nat, polyNorm (zeros n) = [0#12]) ∧
  (∀ p : Poly, p ≠ [] → Normalised (polyNorm p) ∧ ∃ n : Nat, p = zeros n ++ polyNorm p)

/-- R65: the product with [0] is [0]; any other product has len(p) + len(q) - 1 coefficients, the m-th the xor of p[i]·q[m-i];
it needs no normalisation when p and q are normalised and not zero; and the product by [1, r] is the reduced form the rule
gives. -/
def Obligations.PolyMulCoefficients : Prop :=
  (∀ (w : WordSize) (p : Poly), polyMul w p [0#12] = [0#12] ∧ polyMul w [0#12] p = [0#12]) ∧
  (∀ (w : WordSize) (p q : Poly), p ≠ [] → q ≠ [] → p ≠ [0#12] → q ≠ [0#12] →
    (polyMul w p q).length = p.length + q.length - 1 ∧
    ∀ m < p.length + q.length - 1, (polyMul w p q).getD m 0#12 =
      ((List.range (m + 1)).map (fun i => gfMul w (p.getD i 0#12) (q.getD (m - i) 0#12))).foldl (fun x y => x ^^^ y) 0#12) ∧
  (∀ (w : WordSize) (p q : Poly), Normalised p → Normalised q → p ≠ [0#12] → q ≠ [0#12] → allInField w p → allInField w q →
    polyNorm (polyMul w p q) = polyMul w p q) ∧
  (∀ (w : WordSize) (p : Poly) (r : Elem), p ≠ [] → p ≠ [0#12] → allInField w p →
    polyMul w p [1#12, r] = List.zipWith (fun x y => x ^^^ y) (p ++ [0#12]) (0#12 :: p.map (gfMul w r)))

/-- R68 (a), (e): gen_poly(w, d) has d + 1 coefficients, all elements of the field, the first 1; it is normalised and never the
zero polynomial. For both admitted values of GEN_BASE. -/
def Obligations.GeneratorIsMonic : Prop :=
  ∀ (base : GenBase) (w : WordSize) (d : Nat), d ≤ 2 ^ w.bits - 2 →
    (genPoly base w d).length = d + 1 ∧ (genPoly base w d).getD 0 0#12 = 1#12 ∧ allInField w (genPoly base w d) ∧
    polyNorm (genPoly base w d) = genPoly base w d ∧ genPoly base w d ≠ [0#12]

/-- R68 (b): the constant term of gen_poly(w, d) is α^(GEN_BASE·d + d(d-1)/2), never 0. -/
def Obligations.GeneratorConstantTerm : Prop :=
  ∀ (base : GenBase) (w : WordSize) (d : Nat), d ≤ 2 ^ w.bits - 2 →
    (genPoly base w d).getD d 0#12 = expElem w ((base.toNat * d + d * (d - 1) / 2) % (2 ^ w.bits - 1)) ∧
    (genPoly base w d).getD d 0#12 ≠ 0#12

/-- R68 (c): with GEN_BASE = 0 the generators of degree 1, 2 and 3 are the same in all five fields, and those of degree 4 are
not. -/
def Obligations.SmallGenerators : Prop :=
  (∀ w : WordSize, genPoly .zero w 1 = [1#12, 1#12] ∧ genPoly .zero w 2 = [1#12, 3#12, 2#12] ∧
    genPoly .zero w 3 = [1#12, 7#12, 14#12, 8#12]) ∧
  genPoly .zero .w4 4 = [1#12, 15#12, 3#12, 1#12, 12#12] ∧ genPoly .zero .w6 4 = [1#12, 15#12, 54#12, 59#12, 3#12] ∧
  genPoly .zero .w8 4 = [1#12, 15#12, 54#12, 120#12, 64#12]

/-- R66: the roots of gen_poly(w, d) are α^GEN_BASE, …, α^(GEN_BASE + d - 1), pairwise distinct. -/
def Obligations.GeneratorRoots : Prop :=
  ∀ (base : GenBase) (w : WordSize) (d i : Nat), d ≤ 2 ^ w.bits - 2 → i < d →
    polyEval w (genPoly base w d) (expElem w (base.toNat + i)) = 0#12 ∧
    ∀ j : Nat, j < d → i ≠ j → expElem w (base.toNat + i) ≠ expElem w (base.toNat + j)

/-- R67: the cache loop, from a cache that holds the degrees 0..n, holds gen_poly of every degree up to n + m after m turns; and
build raises GENDEG[w] to the larger of its value and d, changing nothing else. -/
def Obligations.CacheLoopBuildsTheGenerators : Prop :=
  (∀ (base : GenBase) (w : WordSize) (n m d : Nat), d ≤ n + m →
    (extendCache base w m (cacheUpTo base w n))[d]? = some (genPoly base w d) ∧
    (extendCache base w m (cacheUpTo base w n)).length = n + m + 1) ∧
  (∀ (s : State) (w : WordSize) (d : Nat), d ≤ 2 ^ w.bits - 2 →
    build s w d = raisedTo s w d ∧ (gendeg (build s w d) w).toNat = max (gendeg s w).toNat d ∧
    ∀ w' : WordSize, w' ≠ w → gendeg (build s w d) w' = gendeg s w')

/-! ## Check words -/

/-- R71: the remainder of a normalised polynomial by a normalised monic one is [0] or shorter than the divisor, and the
dividend is q·g + r for some q. -/
def Obligations.DivisionLeavesARemainder : Prop :=
  ∀ (w : WordSize) (a g : Poly), Normalised a → allInField w a → g.headD 0#12 = 1#12 → allInField w g →
    ∃ r : Poly, polyRem w a g = some r ∧ Normalised r ∧ allInField w r ∧ (r = [0#12] ∨ r.length < g.length) ∧
      ∃ q : Poly, allInField w q ∧ polyAdd (polyMul w q g) r = a

/-- R71: that remainder is the only one: any r that is [0] or of lower degree than g with a = q·g + r is poly_rem(w, a, g). -/
def Obligations.RemainderIsUnique : Prop :=
  ∀ (w : WordSize) (q g r : Poly), g.headD 0#12 = 1#12 → allInField w g → allInField w q → q ≠ [] → Normalised r →
    allInField w r → (r = [0#12] ∨ r.length < g.length) →
    polyRem w (polyAdd (polyMul w q g) r) g = some r

/-- R72: rs_check gives exactly e words, all elements of the field; leading zero words of the data do not change them; all-zero
data gives all-zero check words. -/
def Obligations.CheckWordsHaveLengthE : Prop :=
  ∀ (base : GenBase) (w : WordSize) (data : Poly) (e : Nat), data ≠ [] → allInField w data → 1 ≤ e → e ≤ 2 ^ w.bits - 2 →
    ∃ c : Poly, rsCheck base w data e = some c ∧ c.length = e ∧ allInField w c ∧
      (∀ n : Nat, rsCheck base w (zeros n ++ data) e = some c) ∧
      ((∀ x ∈ data, x = 0#12) → c = zeros e)

/-- R73: the codeword data ++ rs_check(w, data, e) has remainder [0] on division by gen_poly(w, e). -/
def Obligations.CodewordHasZeroRemainder : Prop :=
  ∀ (base : GenBase) (w : WordSize) (data : Poly) (e : Nat), data ≠ [] → allInField w data → 1 ≤ e → e ≤ 2 ^ w.bits - 2 →
    ∃ c : Poly, rsCheck base w data e = some c ∧ polyRem w (polyNorm (data ++ c)) (genPoly base w e) = some [0#12]

/-- R73, equivalent form: the codeword polynomial evaluates to 0 at each of the e roots. -/
def Obligations.CodewordVanishesAtTheRoots : Prop :=
  ∀ (base : GenBase) (w : WordSize) (data : Poly) (e i : Nat), data ≠ [] → allInField w data → 1 ≤ e →
    e ≤ 2 ^ w.bits - 2 → i < e →
    ∃ c : Poly, rsCheck base w data e = some c ∧ polyEval w (data ++ c) (expElem w (base.toNat + i)) = 0#12

/-- R74 (b): the shift register computes the same words as the long division. -/
def Obligations.ShiftRegisterComputesTheCheckWords : Prop :=
  ∀ (base : GenBase) (w : WordSize) (data : Poly) (e : Nat), data ≠ [] → allInField w data → 1 ≤ e → e ≤ 2 ^ w.bits - 2 →
    rsCheck base w data e = some (shiftRegister base w data e)

/-- R74 (a): the check words of the xor of two messages of one length are the xor of their check words. -/
def Obligations.CheckWordsAreLinear : Prop :=
  ∀ (base : GenBase) (w : WordSize) (x y : Poly) (e : Nat), x ≠ [] → x.length = y.length → allInField w x →
    allInField w y → 1 ≤ e → e ≤ 2 ^ w.bits - 2 →
    ∃ c d : Poly, rsCheck base w x e = some c ∧ rsCheck base w y e = some d ∧
      rsCheck base w (List.zipWith gfAdd x y) e = some (List.zipWith gfAdd c d)

/-- R74 (c): the check words of the one-word message [1] are the generator without its leading 1, and those of [c] are c times
them. -/
def Obligations.SingleWordCheckWords : Prop :=
  ∀ (base : GenBase) (w : WordSize) (c : Elem) (e : Nat), c.toNat < 2 ^ w.bits → 1 ≤ e → e ≤ 2 ^ w.bits - 2 →
    rsCheck base w [1#12] e = some (genPoly base w e).tail ∧
    rsCheck base w [c] e = some ((genPoly base w e).tail.map (gfMul w c))
end

