-- ==== Sys2Proof/Laws/State.lean ====
section
/-! SUPPORT. One lemma per field per update of the state, so that no later proof unfolds a record update; and the get and set
laws of the generator counters. -/

namespace Sys2Proof.Machine

@[simp] theorem raiseFault_wsel (s : State) (c : FaultCode) : (raiseFault s c).wsel = s.wsel := rfl
@[simp] theorem raiseFault_fault (s : State) (c : FaultCode) : (raiseFault s c).fault = true := rfl
@[simp] theorem raiseFault_err (s : State) (c : FaultCode) : (raiseFault s c).err = errCode c := rfl
@[simp] theorem raiseFault_result (s : State) (c : FaultCode) : (raiseFault s c).result = s.result := rfl
@[simp] theorem raiseFault_gendeg4 (s : State) (c : FaultCode) : (raiseFault s c).gendeg4 = s.gendeg4 := rfl
@[simp] theorem raiseFault_gendeg6 (s : State) (c : FaultCode) : (raiseFault s c).gendeg6 = s.gendeg6 := rfl
@[simp] theorem raiseFault_gendeg8 (s : State) (c : FaultCode) : (raiseFault s c).gendeg8 = s.gendeg8 := rfl
@[simp] theorem raiseFault_gendeg10 (s : State) (c : FaultCode) : (raiseFault s c).gendeg10 = s.gendeg10 := rfl
@[simp] theorem raiseFault_gendeg12 (s : State) (c : FaultCode) : (raiseFault s c).gendeg12 = s.gendeg12 := rfl
@[simp] theorem raiseFault_buf (s : State) (c : FaultCode) : (raiseFault s c).buf = s.buf := rfl
@[simp] theorem raiseFault_inReset (s : State) (c : FaultCode) : (raiseFault s c).inReset = s.inReset := rfl
@[simp] theorem raiseFault_response (s : State) (c : FaultCode) : (raiseFault s c).response = s.response := rfl
@[simp] theorem raiseFault_pending (s : State) (c : FaultCode) : (raiseFault s c).pending = s.pending := rfl
@[simp] theorem raiseFault_hardResets (s : State) (c : FaultCode) : (raiseFault s c).hardResets = s.hardResets := rfl
@[simp] theorem raiseFault_genBase (s : State) (c : FaultCode) : (raiseFault s c).genBase = s.genBase := rfl

@[simp] theorem bufWrite_wsel (s : State) (i : Nat) (v : Elem) : (bufWrite s i v).wsel = s.wsel := rfl
@[simp] theorem bufWrite_fault (s : State) (i : Nat) (v : Elem) : (bufWrite s i v).fault = s.fault := rfl
@[simp] theorem bufWrite_err (s : State) (i : Nat) (v : Elem) : (bufWrite s i v).err = s.err := rfl
@[simp] theorem bufWrite_result (s : State) (i : Nat) (v : Elem) : (bufWrite s i v).result = s.result := rfl
@[simp] theorem bufWrite_gendeg4 (s : State) (i : Nat) (v : Elem) : (bufWrite s i v).gendeg4 = s.gendeg4 := rfl
@[simp] theorem bufWrite_gendeg6 (s : State) (i : Nat) (v : Elem) : (bufWrite s i v).gendeg6 = s.gendeg6 := rfl
@[simp] theorem bufWrite_gendeg8 (s : State) (i : Nat) (v : Elem) : (bufWrite s i v).gendeg8 = s.gendeg8 := rfl
@[simp] theorem bufWrite_gendeg10 (s : State) (i : Nat) (v : Elem) : (bufWrite s i v).gendeg10 = s.gendeg10 := rfl
@[simp] theorem bufWrite_gendeg12 (s : State) (i : Nat) (v : Elem) : (bufWrite s i v).gendeg12 = s.gendeg12 := rfl
@[simp] theorem bufWrite_buf (s : State) (i : Nat) (v : Elem) : (bufWrite s i v).buf = Memory.write s.buf i v := rfl
@[simp] theorem bufWrite_inReset (s : State) (i : Nat) (v : Elem) : (bufWrite s i v).inReset = s.inReset := rfl
@[simp] theorem bufWrite_response (s : State) (i : Nat) (v : Elem) : (bufWrite s i v).response = s.response := rfl
@[simp] theorem bufWrite_pending (s : State) (i : Nat) (v : Elem) : (bufWrite s i v).pending = s.pending := rfl
@[simp] theorem bufWrite_hardResets (s : State) (i : Nat) (v : Elem) : (bufWrite s i v).hardResets = s.hardResets := rfl
@[simp] theorem bufWrite_genBase (s : State) (i : Nat) (v : Elem) : (bufWrite s i v).genBase = s.genBase := rfl

@[simp] theorem softReset_wsel (s : State) : (softReset s).wsel = none := rfl
@[simp] theorem softReset_fault (s : State) : (softReset s).fault = false := rfl
@[simp] theorem softReset_err (s : State) : (softReset s).err = 0#4 := rfl
@[simp] theorem softReset_result (s : State) : (softReset s).result = 0#12 := rfl
@[simp] theorem softReset_gendeg4 (s : State) : (softReset s).gendeg4 = 0#12 := rfl
@[simp] theorem softReset_gendeg6 (s : State) : (softReset s).gendeg6 = 0#12 := rfl
@[simp] theorem softReset_gendeg8 (s : State) : (softReset s).gendeg8 = 0#12 := rfl
@[simp] theorem softReset_gendeg10 (s : State) : (softReset s).gendeg10 = 0#12 := rfl
@[simp] theorem softReset_gendeg12 (s : State) : (softReset s).gendeg12 = 0#12 := rfl
@[simp] theorem softReset_buf (s : State) : (softReset s).buf = s.buf := rfl
@[simp] theorem softReset_inReset (s : State) : (softReset s).inReset = s.inReset := rfl
@[simp] theorem softReset_response (s : State) : (softReset s).response = s.response := rfl
@[simp] theorem softReset_pending (s : State) : (softReset s).pending = s.pending := rfl
@[simp] theorem softReset_hardResets (s : State) : (softReset s).hardResets = s.hardResets := rfl
@[simp] theorem softReset_genBase (s : State) : (softReset s).genBase = s.genBase := rfl

@[simp] theorem hardReset_wsel (s : State) : (hardReset s).wsel = none := rfl
@[simp] theorem hardReset_fault (s : State) : (hardReset s).fault = false := rfl
@[simp] theorem hardReset_err (s : State) : (hardReset s).err = 0#4 := rfl
@[simp] theorem hardReset_result (s : State) : (hardReset s).result = 0#12 := rfl
@[simp] theorem hardReset_gendeg4 (s : State) : (hardReset s).gendeg4 = 0#12 := rfl
@[simp] theorem hardReset_gendeg6 (s : State) : (hardReset s).gendeg6 = 0#12 := rfl
@[simp] theorem hardReset_gendeg8 (s : State) : (hardReset s).gendeg8 = 0#12 := rfl
@[simp] theorem hardReset_gendeg10 (s : State) : (hardReset s).gendeg10 = 0#12 := rfl
@[simp] theorem hardReset_gendeg12 (s : State) : (hardReset s).gendeg12 = 0#12 := rfl
@[simp] theorem hardReset_buf (s : State) : (hardReset s).buf = [] := rfl
@[simp] theorem hardReset_inReset (s : State) : (hardReset s).inReset = true := rfl
@[simp] theorem hardReset_response (s : State) : (hardReset s).response = .idle := rfl
@[simp] theorem hardReset_pending (s : State) : (hardReset s).pending = s.pending := rfl
@[simp] theorem hardReset_hardResets (s : State) : (hardReset s).hardResets = s.hardResets + 1 := rfl
@[simp] theorem hardReset_genBase (s : State) : (hardReset s).genBase = s.genBase := rfl

@[simp] theorem releaseReset_wsel (s : State) : (releaseReset s).wsel = s.wsel := rfl
@[simp] theorem releaseReset_fault (s : State) : (releaseReset s).fault = s.fault := rfl
@[simp] theorem releaseReset_err (s : State) : (releaseReset s).err = s.err := rfl
@[simp] theorem releaseReset_result (s : State) : (releaseReset s).result = s.result := rfl
@[simp] theorem releaseReset_gendeg4 (s : State) : (releaseReset s).gendeg4 = s.gendeg4 := rfl
@[simp] theorem releaseReset_gendeg6 (s : State) : (releaseReset s).gendeg6 = s.gendeg6 := rfl
@[simp] theorem releaseReset_gendeg8 (s : State) : (releaseReset s).gendeg8 = s.gendeg8 := rfl
@[simp] theorem releaseReset_gendeg10 (s : State) : (releaseReset s).gendeg10 = s.gendeg10 := rfl
@[simp] theorem releaseReset_gendeg12 (s : State) : (releaseReset s).gendeg12 = s.gendeg12 := rfl
@[simp] theorem releaseReset_buf (s : State) : (releaseReset s).buf = s.buf := rfl
@[simp] theorem releaseReset_inReset (s : State) : (releaseReset s).inReset = false := rfl
@[simp] theorem releaseReset_response (s : State) : (releaseReset s).response = s.response := rfl
@[simp] theorem releaseReset_pending (s : State) : (releaseReset s).pending = s.pending := rfl
@[simp] theorem releaseReset_hardResets (s : State) : (releaseReset s).hardResets = s.hardResets := rfl
@[simp] theorem releaseReset_genBase (s : State) : (releaseReset s).genBase = s.genBase := rfl

@[simp] theorem setGendeg_wsel (s : State) (w : WordSize) (d : BitVec 12) : (setGendeg s w d).wsel = s.wsel := by cases w <;> rfl
@[simp] theorem setGendeg_fault (s : State) (w : WordSize) (d : BitVec 12) : (setGendeg s w d).fault = s.fault := by cases w <;> rfl
@[simp] theorem setGendeg_err (s : State) (w : WordSize) (d : BitVec 12) : (setGendeg s w d).err = s.err := by cases w <;> rfl
@[simp] theorem setGendeg_result (s : State) (w : WordSize) (d : BitVec 12) : (setGendeg s w d).result = s.result := by cases w <;> rfl
@[simp] theorem setGendeg_buf (s : State) (w : WordSize) (d : BitVec 12) : (setGendeg s w d).buf = s.buf := by cases w <;> rfl
@[simp] theorem setGendeg_inReset (s : State) (w : WordSize) (d : BitVec 12) : (setGendeg s w d).inReset = s.inReset := by cases w <;> rfl
@[simp] theorem setGendeg_response (s : State) (w : WordSize) (d : BitVec 12) : (setGendeg s w d).response = s.response := by cases w <;> rfl
@[simp] theorem setGendeg_pending (s : State) (w : WordSize) (d : BitVec 12) : (setGendeg s w d).pending = s.pending := by cases w <;> rfl
@[simp] theorem setGendeg_hardResets (s : State) (w : WordSize) (d : BitVec 12) : (setGendeg s w d).hardResets = s.hardResets := by cases w <;> rfl
@[simp] theorem setGendeg_genBase (s : State) (w : WordSize) (d : BitVec 12) : (setGendeg s w d).genBase = s.genBase := by cases w <;> rfl

@[simp] theorem build_wsel (s : State) (w : WordSize) (d : Nat) : (build s w d).wsel = s.wsel := by unfold build; split <;> simp
@[simp] theorem build_fault (s : State) (w : WordSize) (d : Nat) : (build s w d).fault = s.fault := by unfold build; split <;> simp
@[simp] theorem build_err (s : State) (w : WordSize) (d : Nat) : (build s w d).err = s.err := by unfold build; split <;> simp
@[simp] theorem build_result (s : State) (w : WordSize) (d : Nat) : (build s w d).result = s.result := by unfold build; split <;> simp
@[simp] theorem build_buf (s : State) (w : WordSize) (d : Nat) : (build s w d).buf = s.buf := by unfold build; split <;> simp
@[simp] theorem build_inReset (s : State) (w : WordSize) (d : Nat) : (build s w d).inReset = s.inReset := by unfold build; split <;> simp
@[simp] theorem build_response (s : State) (w : WordSize) (d : Nat) : (build s w d).response = s.response := by unfold build; split <;> simp
@[simp] theorem build_pending (s : State) (w : WordSize) (d : Nat) : (build s w d).pending = s.pending := by unfold build; split <;> simp
@[simp] theorem build_hardResets (s : State) (w : WordSize) (d : Nat) : (build s w d).hardResets = s.hardResets := by unfold build; split <;> simp
@[simp] theorem build_genBase (s : State) (w : WordSize) (d : Nat) : (build s w d).genBase = s.genBase := by unfold build; split <;> simp

@[simp] theorem memWrite_wsel (s : State) (i : Nat) (vs : List Elem) : (memWrite s i vs).wsel = s.wsel := by induction vs generalizing s i with
  | nil => rfl
  | cons v vs ih => simp [memWrite, ih]
@[simp] theorem memWrite_fault (s : State) (i : Nat) (vs : List Elem) : (memWrite s i vs).fault = s.fault := by induction vs generalizing s i with
  | nil => rfl
  | cons v vs ih => simp [memWrite, ih]
@[simp] theorem memWrite_err (s : State) (i : Nat) (vs : List Elem) : (memWrite s i vs).err = s.err := by induction vs generalizing s i with
  | nil => rfl
  | cons v vs ih => simp [memWrite, ih]
@[simp] theorem memWrite_result (s : State) (i : Nat) (vs : List Elem) : (memWrite s i vs).result = s.result := by induction vs generalizing s i with
  | nil => rfl
  | cons v vs ih => simp [memWrite, ih]
@[simp] theorem memWrite_gendeg4 (s : State) (i : Nat) (vs : List Elem) : (memWrite s i vs).gendeg4 = s.gendeg4 := by induction vs generalizing s i with
  | nil => rfl
  | cons v vs ih => simp [memWrite, ih]
@[simp] theorem memWrite_gendeg6 (s : State) (i : Nat) (vs : List Elem) : (memWrite s i vs).gendeg6 = s.gendeg6 := by induction vs generalizing s i with
  | nil => rfl
  | cons v vs ih => simp [memWrite, ih]
@[simp] theorem memWrite_gendeg8 (s : State) (i : Nat) (vs : List Elem) : (memWrite s i vs).gendeg8 = s.gendeg8 := by induction vs generalizing s i with
  | nil => rfl
  | cons v vs ih => simp [memWrite, ih]
@[simp] theorem memWrite_gendeg10 (s : State) (i : Nat) (vs : List Elem) : (memWrite s i vs).gendeg10 = s.gendeg10 := by induction vs generalizing s i with
  | nil => rfl
  | cons v vs ih => simp [memWrite, ih]
@[simp] theorem memWrite_gendeg12 (s : State) (i : Nat) (vs : List Elem) : (memWrite s i vs).gendeg12 = s.gendeg12 := by induction vs generalizing s i with
  | nil => rfl
  | cons v vs ih => simp [memWrite, ih]
@[simp] theorem memWrite_inReset (s : State) (i : Nat) (vs : List Elem) : (memWrite s i vs).inReset = s.inReset := by induction vs generalizing s i with
  | nil => rfl
  | cons v vs ih => simp [memWrite, ih]
@[simp] theorem memWrite_response (s : State) (i : Nat) (vs : List Elem) : (memWrite s i vs).response = s.response := by induction vs generalizing s i with
  | nil => rfl
  | cons v vs ih => simp [memWrite, ih]
@[simp] theorem memWrite_pending (s : State) (i : Nat) (vs : List Elem) : (memWrite s i vs).pending = s.pending := by induction vs generalizing s i with
  | nil => rfl
  | cons v vs ih => simp [memWrite, ih]
@[simp] theorem memWrite_hardResets (s : State) (i : Nat) (vs : List Elem) : (memWrite s i vs).hardResets = s.hardResets := by induction vs generalizing s i with
  | nil => rfl
  | cons v vs ih => simp [memWrite, ih]
@[simp] theorem memWrite_genBase (s : State) (i : Nat) (vs : List Elem) : (memWrite s i vs).genBase = s.genBase := by induction vs generalizing s i with
  | nil => rfl
  | cons v vs ih => simp [memWrite, ih]

/-! A block built with either GEN_BASE right after reset. -/

@[simp] theorem resetFor_genBase (base : GenBase) : (State.resetFor base).genBase = base := rfl
@[simp] theorem resetFor_default : State.resetFor Config.genBase = State.reset := rfl

/-! The generator counters. -/

theorem gendeg_setGendeg (s : State) (w w' : WordSize) (d : BitVec 12) :
    gendeg (setGendeg s w d) w' = if w' = w then d else gendeg s w' := by
  cases w <;> cases w' <;> rfl

@[simp] theorem gendeg_setGendeg_same (s : State) (w : WordSize) (d : BitVec 12) :
    gendeg (setGendeg s w d) w = d := by
  cases w <;> rfl

theorem setGendeg_gendeg (s : State) (w : WordSize) : setGendeg s w (gendeg s w) = s := by
  cases w <;> rfl

theorem gendeg_congr {s t : State} (w : WordSize)
    (h : s.gendeg4 = t.gendeg4 ∧ s.gendeg6 = t.gendeg6 ∧ s.gendeg8 = t.gendeg8 ∧
      s.gendeg10 = t.gendeg10 ∧ s.gendeg12 = t.gendeg12) : gendeg s w = gendeg t w := by
  obtain ⟨h4, h6, h8, h10, h12⟩ := h
  cases w <;> assumption

@[simp] theorem gendeg_raiseFault (s : State) (c : FaultCode) (w : WordSize) :
    gendeg (raiseFault s c) w = gendeg s w := by
  cases w <;> rfl

@[simp] theorem gendeg_bufWrite (s : State) (i : Nat) (v : Elem) (w : WordSize) :
    gendeg (bufWrite s i v) w = gendeg s w := by
  cases w <;> rfl

@[simp] theorem gendeg_softReset (s : State) (w : WordSize) : gendeg (softReset s) w = 0#12 := by
  cases w <;> rfl

@[simp] theorem gendeg_hardReset (s : State) (w : WordSize) : gendeg (hardReset s) w = 0#12 := by
  cases w <;> rfl

@[simp] theorem gendeg_memWrite (s : State) (i : Nat) (vs : List Elem) (w : WordSize) :
    gendeg (memWrite s i vs) w = gendeg s w :=
  gendeg_congr w (by simp)

end Sys2Proof.Machine
end

