-- ==== Sys2Proof/Laws/Memory.lean ====
section
/-! SUPPORT. The laws of BUF: what a read gives after a write, that a write keeps the canonical form, and the same for the
sequences MemRead and MemWrite of R10. -/

namespace Sys2Proof.Machine

@[simp] theorem memory_read_write_same (m : Memory) (i : Nat) (v : Elem) :
    Memory.read? (Memory.write m i v) i = some v := by
  induction m with
  | nil => simp [Memory.write, Memory.read?]
  | cons c m ih =>
    obtain ⟨j, u⟩ := c
    simp only [Memory.write]
    split
    · simp [Memory.read?]
    · split
      · simp [Memory.read?]
      · rw [Memory.read?, if_neg (by omega), ih]

theorem memory_read_write_other (m : Memory) {i j : Nat} (v : Elem) (h : j ≠ i) :
    Memory.read? (Memory.write m i v) j = Memory.read? m j := by
  induction m with
  | nil => simp [Memory.write, Memory.read?, h.symm]
  | cons c m ih =>
    obtain ⟨k, u⟩ := c
    simp only [Memory.write]
    split
    · rw [Memory.read?, if_neg h.symm]
    · split
      · subst k; rw [Memory.read?, Memory.read?, if_neg h.symm, if_neg h.symm]
      · simp only [Memory.read?, ih]

theorem memory_wfFrom_mono {lo lo' : Nat} {m : Memory} (hle : lo ≤ lo') (h : Memory.wfFrom lo' m = true) :
    Memory.wfFrom lo m = true := by
  cases m with
  | nil => rfl
  | cons c m =>
    obtain ⟨i, v⟩ := c
    simp only [Memory.wfFrom, Bool.and_eq_true, decide_eq_true_eq] at h ⊢
    exact ⟨⟨by omega, h.1.2⟩, h.2⟩

theorem memory_wfFrom_write {lo i : Nat} {m : Memory} (v : Elem) (hlo : lo ≤ i) (hi : i < Config.bufWords)
    (h : Memory.wfFrom lo m = true) : Memory.wfFrom lo (Memory.write m i v) = true := by
  induction m generalizing lo with
  | nil => simp [Memory.write, Memory.wfFrom, hlo, hi]
  | cons c m ih =>
    obtain ⟨j, u⟩ := c
    simp only [Memory.wfFrom, Bool.and_eq_true, decide_eq_true_eq] at h
    simp only [Memory.write]
    split
    · simp only [Memory.wfFrom, Bool.and_eq_true, decide_eq_true_eq]
      exact ⟨⟨hlo, hi⟩, ⟨by omega, h.1.2⟩, h.2⟩
    · split
      · subst j
        simp only [Memory.wfFrom, Bool.and_eq_true, decide_eq_true_eq]
        exact ⟨⟨hlo, hi⟩, h.2⟩
      · simp only [Memory.wfFrom, Bool.and_eq_true, decide_eq_true_eq]
        exact ⟨h.1, ih (by omega) h.2⟩

/-- A write keeps the canonical form. -/
theorem memory_wf_write {m : Memory} {i : Nat} (v : Elem) (hi : i < Config.bufWords) (h : Memory.wf m = true) :
    Memory.wf (Memory.write m i v) = true :=
  memory_wfFrom_write v (Nat.zero_le i) hi h

/-- The empty memory, BUF after a hard reset, has the canonical form. -/
@[simp] theorem memory_wf_nil : Memory.wf [] = true := rfl

theorem memory_read_below {lo i : Nat} {m : Memory} (h : Memory.wfFrom lo m = true) (hi : i < lo) :
    Memory.read? m i = none := by
  induction m generalizing lo with
  | nil => rfl
  | cons c m ih =>
    obtain ⟨j, u⟩ := c
    simp only [Memory.wfFrom, Bool.and_eq_true, decide_eq_true_eq] at h
    rw [Memory.read?, if_neg (by omega)]
    exact ih h.2 (by omega)

theorem memory_ext_from {lo : Nat} {m n : Memory} (hm : Memory.wfFrom lo m = true) (hn : Memory.wfFrom lo n = true)
    (h : ∀ i, Memory.read? m i = Memory.read? n i) : m = n := by
  induction m generalizing lo n with
  | nil =>
    cases n with
    | nil => rfl
    | cons c n =>
      have := h c.1
      simp [Memory.read?, Memory.unlisted] at this
  | cons c m ih =>
    obtain ⟨i, u⟩ := c
    cases n with
    | nil =>
      have := h i
      simp [Memory.read?, Memory.unlisted] at this
    | cons d n =>
      obtain ⟨j, v⟩ := d
      simp only [Memory.wfFrom, Bool.and_eq_true, decide_eq_true_eq] at hm hn
      have hij : i = j := by
        rcases Nat.lt_trichotomy i j with hlt | heq | hgt
        · have := h i
          rw [Memory.read?, if_pos rfl, Memory.read?, if_neg (by omega), memory_read_below hn.2 (by omega)] at this
          simp at this
        · exact heq
        · have := h j
          rw [Memory.read?, if_neg (by omega), memory_read_below hm.2 (by omega), Memory.read?, if_pos rfl] at this
          simp at this
      subst j
      have huv : u = v := by simpa [Memory.read?] using h i
      subst v
      have htail : m = n := by
        refine ih hm.2 hn.2 fun k => ?_
        by_cases hk : i = k
        · subst k
          rw [memory_read_below hm.2 (by omega), memory_read_below hn.2 (by omega)]
        · simpa [Memory.read?, hk] using h k
      rw [htail]

/-- In canonical form, memories that hold the same words are the same data. -/
theorem memory_ext {m n : Memory} (hm : Memory.wf m = true) (hn : Memory.wf n = true)
    (h : ∀ i, Memory.read? m i = Memory.read? n i) : m = n :=
  memory_ext_from hm hn h

/-! BUF[i] and the sequences of R10. -/

@[simp] theorem bufRead_bufWrite_same (s : State) (i : Nat) (v : Elem) : bufRead (bufWrite s i v) i = v := by
  simp [bufRead]

theorem bufRead_bufWrite_other (s : State) {i j : Nat} (v : Elem) (h : j ≠ i) :
    bufRead (bufWrite s i v) j = bufRead s j := by
  simp [bufRead, memory_read_write_other _ _ h]

/-- Reading BUF depends on the list and on the number of hard resets only. -/
theorem bufRead_congr {s t : State} (i : Nat) (hb : s.buf = t.buf) (hr : s.hardResets = t.hardResets) :
    bufRead s i = bufRead t i := by
  simp [bufRead, hb, hr]

@[simp] theorem memRead_length (s : State) (i n : Nat) : (memRead s i n).length = n := by simp [memRead]

theorem memRead_congr {s t : State} {i n : Nat} (h : ∀ j < n, bufRead s (i + j) = bufRead t (i + j)) :
    memRead s i n = memRead t i n := by
  unfold memRead
  exact List.map_congr_left fun j hj => h j (List.mem_range.mp hj)

/-- MemWrite leaves the words outside i..i+n-1 alone. -/
theorem bufRead_memWrite_outside (s : State) (i : Nat) (vs : List Elem) {a : Nat} (h : a < i ∨ i + vs.length ≤ a) :
    bufRead (memWrite s i vs) a = bufRead s a := by
  induction vs generalizing s i with
  | nil => rfl
  | cons v vs ih =>
    simp only [List.length_cons] at h
    rw [memWrite, ih _ _ (by omega), bufRead_bufWrite_other _ _ (by omega)]

/-- MemWrite puts vs[j] into BUF[i+j]. -/
theorem bufRead_memWrite_inside (s : State) (i : Nat) (vs : List Elem) {j : Nat} (h : j < vs.length) :
    bufRead (memWrite s i vs) (i + j) = vs[j] := by
  induction vs generalizing s i j with
  | nil => simp at h
  | cons v vs ih =>
    rw [memWrite]
    cases j with
    | zero => rw [bufRead_memWrite_outside _ _ _ (by omega)]; simp
    | succ j =>
      have := ih (bufWrite s i v) (i + 1) (j := j) (by simpa using h)
      rw [show i + (j + 1) = i + 1 + j by omega, this]
      simp

/-- MemWrite within BUF keeps the canonical form. -/
theorem memory_wf_memWrite (s : State) (i : Nat) (vs : List Elem) (hi : i + vs.length ≤ Config.bufWords)
    (h : Memory.wf s.buf = true) : Memory.wf (memWrite s i vs).buf = true := by
  induction vs generalizing s i with
  | nil => exact h
  | cons v vs ih =>
    simp only [List.length_cons] at hi
    exact ih (bufWrite s i v) (i + 1) (by omega) (memory_wf_write v (by omega) h)

end Sys2Proof.Machine
end

