-- ==== Sys2Proof/Laws/Tables.lean ====
section
/-! SUPPORT. Bounds of the tables and of the field product, and the steps of the logarithm search (R52, R53, R58). -/

namespace Sys2Proof.Machine

theorem size_pos (w : WordSize) : 0 < w.size := by cases w <;> decide

theorem size_le (w : WordSize) : w.size ≤ 4096 := by cases w <;> decide

theorem order_eq (w : WordSize) : w.order = w.degMax + 1 := by cases w <;> decide

theorem size_eq (w : WordSize) : w.size = w.order + 1 := by cases w <;> decide

@[simp] theorem double_zero (w : WordSize) : double w 0 = 0 := by cases w <;> rfl

/-- The loop doubles at its end as well as at its start. -/
theorem doublings_succ (w : WordSize) (steps power : Nat) :
    doublings w (steps + 1) power = double w (doublings w steps power) := by
  induction steps generalizing power with
  | zero => simp only [doublings]; split <;> simp_all
  | succ steps ih =>
    rw [doublings]
    split
    case isTrue h => simp [doublings, h]
    case isFalse h => rw [ih, doublings, if_neg h]

@[simp] theorem expTable_zero (w : WordSize) : expTable w 0 = 1 := rfl

/-- Each entry of EXP[w] is the one before it, doubled (R52). -/
theorem expTable_succ (w : WordSize) (i : Nat) : expTable w (i + 1) = double w (expTable w i) :=
  doublings_succ w i 1

/-- "After the xor the value is again below 2^w" (R52). -/
theorem double_lt {w : WordSize} {x : Nat} (h : x < w.size) : double w x < w.size := by
  unfold double
  split
  case isFalse hlt => omega
  case isTrue hge =>
    rw [Nat.shiftLeft_eq] at *
    have key : ∀ b p : Nat, x * 2 ^ 1 < 2 ^ (b + 1) → 2 ^ b ≤ x * 2 ^ 1 → p < 2 ^ (b + 1) → 2 ^ b ≤ p →
        (x * 2 ^ 1) ^^^ p < 2 ^ b := by
      intro b p hx hx' hp hp'
      refine Nat.lt_pow_two_of_testBit _ fun i hi => ?_
      rw [Nat.testBit_xor]
      rcases Nat.lt_or_ge b i with h1 | h1
      · rw [Nat.testBit_lt_two_pow (lt_of_lt_of_le hx (Nat.pow_le_pow_right (by omega) h1)),
          Nat.testBit_lt_two_pow (lt_of_lt_of_le hp (Nat.pow_le_pow_right (by omega) h1))]
        rfl
      · have hib : i = b := by omega
        subst hib
        have top : ∀ y : Nat, y < 2 ^ (i + 1) → 2 ^ i ≤ y → y.testBit i = true := by
          intro y hy hy'
          rw [Nat.testBit_eq_decide_div_mod_eq]
          have : y / 2 ^ i = 1 := by
            apply Nat.div_eq_of_lt_le <;> rw [Nat.pow_succ] at * <;> omega
          simp [this]
        rw [top _ hx hx', top _ hp hp']
        rfl
    cases w <;> simp only [WordSize.size, WordSize.bits, WordSize.prim] at * <;>
      (apply key <;> first | assumption | omega)

theorem expTable_lt (w : WordSize) (i : Nat) : expTable w i < w.size := by
  induction i with
  | zero => cases w <;> decide
  | succ i ih => rw [expTable_succ]; exact double_lt ih

@[simp] theorem expElem_toNat (w : WordSize) (i : Nat) : (expElem w i).toNat = expTable w i := by
  have h1 := expTable_lt w i
  have h2 := size_le w
  simp only [expElem, BitVec.toNat_ofNat]
  omega

/-- Field multiplication returns a value below 2^w (R56). -/
theorem gfMul_lt (w : WordSize) (a b : Elem) : (gfMul w a b).toNat < w.size := by
  unfold gfMul
  split
  · exact size_pos w
  · rw [expElem_toNat]; exact expTable_lt w _

@[simp] theorem gfMul_zero_left (w : WordSize) (b : Elem) : gfMul w 0#12 b = 0#12 := by simp [gfMul]

@[simp] theorem gfMul_zero_right (w : WordSize) (a : Elem) : gfMul w a 0#12 = 0#12 := by simp [gfMul]

theorem gfMul_nonzero {w : WordSize} {a b : Elem} (ha : a ≠ 0#12) (hb : b ≠ 0#12) :
    gfMul w a b = expElem w ((logTable w a.toNat + logTable w b.toNat) % w.order) := by
  simp [gfMul, ha, hb]

theorem gfMul_comm (w : WordSize) (a b : Elem) : gfMul w a b = gfMul w b a := by
  unfold gfMul
  rw [Nat.add_comm (logTable w a.toNat)]
  simp only [Or.comm]

/-- The search answers an index it has passed, or the end of its range. -/
theorem logSearch_spec (w : WordSize) (x steps i : Nat) :
    (∃ k, k < steps ∧ expTable w (i + k) = x ∧ logSearch w x steps i (expTable w i) = i + k) ∨
    ((∀ k, k < steps → expTable w (i + k) ≠ x) ∧ logSearch w x steps i (expTable w i) = i + steps) := by
  induction steps generalizing i with
  | zero => exact .inr ⟨fun k hk => by omega, rfl⟩
  | succ steps ih =>
    rw [logSearch]
    split
    case isTrue hx => exact .inl ⟨0, by omega, hx, rfl⟩
    case isFalse hx =>
      rw [← expTable_succ]
      rcases ih (i + 1) with ⟨k, hk, he, hl⟩ | ⟨hn, hl⟩
      · exact .inl ⟨k + 1, by omega, by rw [← he]; congr 1; omega, by rw [hl]; omega⟩
      · refine .inr ⟨fun k hk => ?_, by rw [hl]; omega⟩
        cases k with
        | zero => exact hx
        | succ k =>
          have := hn k (by omega)
          rwa [show i + 1 + k = i + (k + 1) by omega] at this

/-- LOG[w][x] is an index of EXP[w] that holds x, if there is one (R53). -/
theorem logTable_spec {w : WordSize} {x i : Nat} (hi : i < w.order) (hx : expTable w i = x) :
    logTable w x < w.order ∧ expTable w (logTable w x) = x := by
  have h := logSearch_spec w x w.order 0
  simp only [Nat.zero_add] at h
  rcases h with ⟨k, hk, he, hl⟩ | ⟨hn, -⟩
  · have : logTable w x = k := hl
    rw [this]; exact ⟨hk, he⟩
  · exact absurd hx (hn i hi)

end Sys2Proof.Machine
end

