-- ==== Sys2Proof/Laws/Ops.lean ====
section
/-! SUPPORT. One lemma per shared operation that says once what it can do: the word size operand, the selected field, `build`,
`encodeBlock`, the CMD write, and the locations of the window. Proofs cite these instead of unfolding the operations. -/

namespace Sys2Proof.Machine

@[simp] theorem wordSizeOf_bits (w : WordSize) : wordSizeOf w.bits = some w := by cases w <;> rfl

theorem wordSizeOf_some {n : Nat} {w : WordSize} (h : wordSizeOf n = some w) : n = w.bits := by
  unfold wordSizeOf at h
  repeat' split at h
  all_goals first | (cases h; simpa [WordSize.bits]) | cases h

theorem wordSizeOf_none {n : Nat} (h : n ≠ 4 ∧ n ≠ 6 ∧ n ≠ 8 ∧ n ≠ 10 ∧ n ≠ 12) : wordSizeOf n = none := by
  obtain ⟨h4, h6, h8, h10, h12⟩ := h
  simp [wordSizeOf, *]

@[simp] theorem withField_none {s : State} (h : s.wsel = none) (k : WordSize → Outcome) :
    withField s k = faulted s .wordsize := by simp [withField, h]

@[simp] theorem withField_some {s : State} {w : WordSize} (h : s.wsel = some w) (k : WordSize → Outcome) :
    withField s k = k w := by simp [withField, h]

theorem inField_iff (w : WordSize) (v : Elem) : inField w v = true ↔ v.toNat < w.size := by simp [inField]

/-- R75 check 5 passes exactly when every data word is an element of the field. -/
theorem dataOutOfRange_false (s : State) (w : WordSize) (k : Nat) :
    dataOutOfRange s w k = false ↔ ∀ i < k, (bufRead s i).toNat < w.size := by
  simp [dataOutOfRange, memRead, inField]

/-- build(w, d) sets GENDEG[w] to the larger of its value and d (R67). -/
theorem build_eq (s : State) (w : WordSize) (d : Nat) :
    build s w d = setGendeg s w (BitVec.ofNat 12 (max (gendeg s w).toNat d)) := by
  unfold build
  split
  · rw [Nat.max_eq_right (by omega)]
  · rw [Nat.max_eq_left (by omega), BitVec.ofNat_toNat, BitVec.setWidth_eq, setGendeg_gendeg]

theorem gendeg_build {s : State} {w : WordSize} {d : Nat} (hd : d < 4096) :
    (gendeg (build s w d) w).toNat = max (gendeg s w).toNat d := by
  have := (gendeg s w).isLt
  rw [build_eq, gendeg_setGendeg_same, BitVec.toNat_ofNat, Nat.mod_eq_of_lt]
  omega

theorem gendeg_build_other {s : State} {w w' : WordSize} {d : Nat} (h : w' ≠ w) :
    gendeg (build s w d) w' = gendeg s w' := by
  unfold build
  split
  · rw [gendeg_setGendeg, if_neg h]
  · rfl

theorem degMax_lt (w : WordSize) : w.degMax < 4096 := by cases w <;> decide

/-- What the checks 3 to 5 of R75 and the effect can answer. -/
theorem encodeBlock_cases (w : WordSize) (k e : Nat) (s : State) :
    ((w.degMax < e ∨ 4096 < k + e ∨ ∃ i < k, w.size ≤ (bufRead s i).toNat) ∧
      encodeBlock w k e s = faulted s .range) ∨
    ((e ≤ w.degMax ∧ k + e ≤ 4096 ∧ ∀ i < k, (bufRead s i).toNat < w.size) ∧
      ((rsCheck s.genBase w (memRead s 0 k) e = none ∧ encodeBlock w k e s = faulted s .degenerate) ∨
       ∃ c, rsCheck s.genBase w (memRead s 0 k) e = some c ∧
         encodeBlock w k e s = .next (memWrite (build s w e) k c))) := by
  by_cases h3 : w.degMax < e
  · exact .inl ⟨.inl h3, by simp [encodeBlock, h3]⟩
  by_cases h4 : 4096 < k + e
  · exact .inl ⟨.inr (.inl h4), by simp [encodeBlock, Config.bufWords, h4]⟩
  cases h5 : dataOutOfRange s w k with
  | true =>
    refine .inl ⟨.inr (.inr ?_), by simp [encodeBlock, h5]⟩
    by_contra hn
    have : ∀ i < k, (bufRead s i).toNat < w.size := fun i hi => by
      by_contra hge
      exact hn ⟨i, hi, by omega⟩
    rw [← dataOutOfRange_false, h5] at this
    cases this
  | false =>
    refine .inr ⟨⟨by omega, by omega, (dataOutOfRange_false s w k).mp h5⟩, ?_⟩
    cases hc : rsCheck s.genBase w (memRead s 0 k) e with
    | none => exact .inl ⟨rfl, by simp [encodeBlock, Config.bufWords, h3, h4, h5, hc]⟩
    | some c => exact .inr ⟨c, rfl, by simp [encodeBlock, Config.bufWords, h3, h4, h5, hc]⟩

/-- What a write to CMD can do (R23, R107, R108). -/
theorem commandWrite_cases (v : Word) (s : State) :
    (s.fault = true ∧ commandWrite v s = .next s) ∨
    (s.fault = false ∧ decode v = none ∧ commandWrite v s = faulted s .opcode) ∨
    (s.fault = false ∧ ∃ i, decode v = some i ∧ commandWrite v s = exec i s) := by
  cases hf : s.fault with
  | true => exact .inl ⟨rfl, by simp [commandWrite, hf]⟩
  | false =>
    cases hd : decode v with
    | none => exact .inr (.inl ⟨rfl, rfl, by simp [commandWrite, hf, hd]⟩)
    | some i => exact .inr (.inr ⟨rfl, i, rfl, by simp [commandWrite, hf, hd]⟩)

/-- The offsets of the buffer window name BUF[0] to BUF[4095] (R39). -/
theorem locate_buf {i : Nat} (h : i < 4096) : locate (0x4000 + 4 * i) = some (.buf i) := by
  unfold locate
  repeat rw [if_neg (by omega)]
  rw [if_pos (by omega)]
  congr 2
  omega

theorem locate_buf_lt {off i : Nat} (h : locate off = some (.buf i)) : i < Config.bufWords := by
  unfold locate at h
  repeat' split at h
  all_goals cases h
  simp only [Config.bufWords]
  omega

/-- An access that keeps R32 and names a mapped offset reaches its location. -/
theorem target_ok {off : Word} {l : Location} (ha : off.toNat % 4 = 0) (hl : locate off.toNat = some l) :
    target off 32 = .ok l := by
  simp [target, ha, hl]

theorem target_ok_inv {off : Word} {width : Nat} {l : Location} (h : target off width = .ok l) :
    width = 32 ∧ off.toNat % 4 = 0 ∧ locate off.toNat = some l := by
  unfold target at h
  split at h
  · cases h
  · split at h
    · cases h
    · split at h
      · cases h
      · cases h; exact ⟨by omega, by omega, by assumption⟩

/-- A step with nothing in store changes nothing. -/
@[simp] theorem step_idle {s : State} (h : s.pending = []) : step s = .next s := by
  simp [step, hostStep, h]

/-- A step accepts the oldest event. -/
theorem step_event (s : State) (e : BusEvent) (rest : List BusEvent) :
    step { s with pending := e :: rest } = acceptEvent { s with pending := rest } e := rfl

end Sys2Proof.Machine
end

