-- ==== Sys2Proof/Laws/PerInstr.lean ====
section
/-! SUPPORT. Statements made per command: the fields of each command's word (R45, R46, R48). -/

namespace Sys2Proof

/-- OP of a command (R46). -/
def opcodeOf : Instr → BitVec 8
  | .nop => 0x00#8
  | .setw _ => 0x01#8
  | .gfexp _ => 0x10#8
  | .gflog _ => 0x11#8
  | .gfmul _ _ => 0x12#8
  | .genbld _ => 0x20#8
  | .genrd _ _ => 0x21#8
  | .rsenc _ _ => 0x30#8
  | .rsencp _ _ => 0x31#8

/-- The number in field A of a command, 0 for a command of one operand (R46, R48). -/
def operandA : Instr → Nat
  | .gfmul a _ => a.toNat
  | .genrd d _ => d
  | .rsenc k _ => k
  | .rsencp n _ => n
  | .nop | .setw _ | .gfexp _ | .gflog _ | .genbld _ => 0

/-- The number in field B of a command (R46, R48). -/
def operandB : Instr → Nat
  | .nop => 0
  | .setw w => w
  | .gfexp i => i
  | .gflog x => x.toNat
  | .gfmul _ b => b.toNat
  | .genbld d => d
  | .genrd _ j => j
  | .rsenc _ e => e
  | .rsencp _ e => e

theorem commandWord_toNat {op a b : Nat} (ho : op < 256) (ha : a < 4096) (hb : b < 4096) :
    (commandWord op a b).toNat = op * 2 ^ 24 + a * 2 ^ 12 + b := by
  simp only [commandWord, BitVec.toNat_ofNat]
  omega

theorem fieldOp_toNat (v : Word) : (fieldOp v).toNat = v.toNat / 2 ^ 24 := by
  simp only [fieldOp, BitVec.extractLsb'_toNat, Nat.shiftRight_eq_div_pow]
  have := v.isLt
  omega

theorem fieldA_toNat (v : Word) : (fieldA v).toNat = v.toNat / 2 ^ 12 % 2 ^ 12 := by
  simp only [fieldA, BitVec.extractLsb'_toNat, Nat.shiftRight_eq_div_pow]

theorem fieldB_toNat (v : Word) : (fieldB v).toNat = v.toNat % 2 ^ 12 := by
  simp only [fieldB, BitVec.extractLsb'_toNat, Nat.shiftRight_eq_div_pow]
  omega

/-- The three fields of the word OP·2^24 + A·2^12 + B (R45). -/
theorem commandWord_fields {op a b : Nat} (ho : op < 256) (ha : a < 4096) (hb : b < 4096) :
    (fieldOp (commandWord op a b)).toNat = op ∧ (fieldA (commandWord op a b)).toNat = a ∧
      (fieldB (commandWord op a b)).toNat = b := by
  rw [fieldOp_toNat, fieldA_toNat, fieldB_toNat, commandWord_toNat ho ha hb]
  omega

theorem fitsField_iff (n : Nat) : fitsField n = true ↔ n < 4096 := by simp [fitsField]

namespace Laws.EncodeFields

/-- The word of a well-formed command carries its OP and its operands in the fields R45 gives them. -/
def Statement (i : Instr) : Prop :=
  i.wellFormed = true →
    (fieldOp (encode i)).toNat = (opcodeOf i).toNat ∧ (fieldA (encode i)).toNat = operandA i ∧
      (fieldB (encode i)).toNat = operandB i

theorem nop : Statement .nop := fun _ => by decide

theorem setw (w : Nat) : Statement (.setw w) := fun h =>
  commandWord_fields (by decide) (by decide) ((fitsField_iff w).mp h)

theorem gfexp (i : Nat) : Statement (.gfexp i) := fun h =>
  commandWord_fields (by decide) (by decide) ((fitsField_iff i).mp h)

theorem gflog (x : Elem) : Statement (.gflog x) := fun _ =>
  commandWord_fields (by decide) (by decide) x.isLt

theorem gfmul (a b : Elem) : Statement (.gfmul a b) := fun _ =>
  commandWord_fields (by decide) a.isLt b.isLt

theorem genbld (d : Nat) : Statement (.genbld d) := fun h =>
  commandWord_fields (by decide) (by decide) ((fitsField_iff d).mp h)

theorem genrd (d j : Nat) : Statement (.genrd d j) := fun h => by
  simp only [Instr.wellFormed, Bool.and_eq_true, fitsField_iff] at h
  exact commandWord_fields (by decide) h.1 h.2

theorem rsenc (k e : Nat) : Statement (.rsenc k e) := fun h => by
  simp only [Instr.wellFormed, Bool.and_eq_true, fitsField_iff] at h
  exact commandWord_fields (by decide) h.1 h.2

theorem rsencp (n e : Nat) : Statement (.rsencp n e) := fun h => by
  simp only [Instr.wellFormed, Bool.and_eq_true, fitsField_iff] at h
  exact commandWord_fields (by decide) h.1 h.2

end Laws.EncodeFields

end Sys2Proof
end

