-- ==== Sys2Proof/Laws/Poly.lean ====
section
/-! SUPPORT. The small lemmas of the polynomial operations: lengths, normalised spellings, the product's length (R63 to R66,
R71, R72). -/

namespace Sys2Proof.Machine

@[simp] theorem zeros_length (n : Nat) : (zeros n).length = n := by simp [zeros]

@[simp] theorem zeros_zero : zeros 0 = [] := rfl

theorem zeros_succ (n : Nat) : zeros (n + 1) = 0#12 :: zeros n := rfl

theorem polyNorm_ne_nil (p : Poly) : polyNorm p ≠ [] := by
  fun_induction polyNorm p <;> simp_all

/-- A sequence that starts with a non-zero coefficient is its own normal form (R63). -/
theorem polyNorm_of_head {c : Elem} (p : Poly) (h : c ≠ 0#12) : polyNorm (c :: p) = c :: p := by
  cases p <;> simp [polyNorm, h]

theorem polyNorm_length_le {p : Poly} (h : p ≠ []) : (polyNorm p).length ≤ p.length := by
  fun_induction polyNorm p <;> simp_all
  omega

@[simp] theorem padLeft_length (n : Nat) (p : Poly) : (padLeft n p).length = max n p.length := by
  simp [padLeft]; omega

@[simp] theorem addInto_length (ts r : Poly) : (addInto ts r).length = max ts.length r.length := by
  induction ts generalizing r with
  | nil => simp [addInto]
  | cons t ts ih =>
    cases r with
    | nil => simp [addInto]
    | cons c r => simp [addInto, ih]

/-- The product of p and q has len(p) + len(q) - 1 coefficients (R65). -/
theorem mulRows_length (w : WordSize) (p : Poly) {q : Poly} (hq : q ≠ []) :
    (mulRows w p q).length = p.length + q.length - 1 := by
  have hq' : 0 < q.length := List.length_pos_iff.mpr hq
  induction p with
  | nil => simp [mulRows]
  | cons c p ih =>
    rw [mulRows]
    obtain ⟨t, ts, hts⟩ : ∃ t ts, q.map (gfMul w c) = t :: ts := by
      cases q with
      | nil => exact absurd rfl hq
      | cons d q => exact ⟨_, _, rfl⟩
    have hlen : ts.length + 1 = q.length := by
      have := congrArg List.length hts
      simpa using this.symm
    rw [hts]
    simp only [List.length_cons, addInto_length, ih]
    omega

end Sys2Proof.Machine
end

