-- ==== Sys2Proof/Tests/Slice0.lean ====
section
/-! SUPPORT. The model's own tests: ill-formed commands, words written out from the encoding, and steps whose expected results
are the vectors of spec/95_test_vectors.md (the section is named at each test); and a witness for the hypotheses of each
obligation. -/

namespace Sys2Proof.Tests

open Sys2Proof Sys2Proof.Machine

/-! ## Helpers -/

/-- The state after reset and a SETW. -/
def selected (w : WordSize) : State := { State.reset with wsel := some w }

/-- The state after reset, a SETW and WBUFs of the given words from index 0. -/
def loaded (w : WordSize) (data : List Elem) : State := memWrite (selected w) 0 data

def nextState : Outcome → Option State
  | .next t => some t
  | _ => none

/-- One CMD write. -/
def afterCommand (s : State) (v : Nat) : Option State := nextState (step (s.withFetchWord 32 v))

/-- One bus event. -/
def afterEvent (s : State) (e : BusEvent) : Option State := nextState (step { s with pending := [e] })

/-- RESULT and STATUS after one CMD write. -/
def resultStatus (s : State) (v : Nat) : Option (Nat × Nat) :=
  (afterCommand s v).map fun t => (t.result.toNat, (statusWord t).toNat)

def statusAfter (s : State) (v : Nat) : Option Nat := (afterCommand s v).map fun t => (statusWord t).toNat

/-- BUF from index 0, the GENDEG register and STATUS after one CMD write. -/
def bufferAfter (s : State) (v n : Nat) : Option (List Nat × Nat × Nat) :=
  (afterCommand s v).map fun t =>
    ((memRead t 0 n).map BitVec.toNat, (gendegRegister t).toNat, (statusWord t).toNat)

/-- A check for the two admitted values of GEN_BASE, the default first. -/
def forBothBases {α : Type} (s : State) (f : State → α) : List α :=
  [GenBase.zero, GenBase.one].map fun base => f { s with genBase := base }

/-! ## Well-formedness: each check refuses an ill-formed command (R48) -/

theorem test_setw_operand_wide : Instr.wellFormed (.setw 4096) = false := by decide
theorem test_gfexp_operand_wide : Instr.wellFormed (.gfexp 4096) = false := by decide
theorem test_genbld_operand_wide : Instr.wellFormed (.genbld 4096) = false := by decide
theorem test_genrd_degree_wide : Instr.wellFormed (.genrd 4096 0) = false := by decide
theorem test_genrd_index_wide : Instr.wellFormed (.genrd 0 4096) = false := by decide
theorem test_rsenc_k_wide : Instr.wellFormed (.rsenc 4096 1) = false := by decide
theorem test_rsenc_e_wide : Instr.wellFormed (.rsenc 1 4096) = false := by decide
theorem test_rsencp_n_wide : Instr.wellFormed (.rsencp 4096 1) = false := by decide
theorem test_rsencp_e_wide : Instr.wellFormed (.rsencp 1 4096) = false := by decide
theorem test_largest_operands_fit : Instr.wellFormed (.rsenc 4095 4095) = true := by decide

/-! ## Decoding: words written out bit by bit from {OP[31:24], A[23:12], B[11:0]} (R45, R46), values of sections 6.1, 6.2 -/

theorem test_word_nop : decode 0b00000000_000000000000_000000000000#32 = some .nop := by decide
theorem test_word_setw : decode 0b00000001_000000000000_000000001000#32 = some (.setw 8) := by decide
theorem test_word_gfexp : decode 0b00010000_000000000000_000000001110#32 = some (.gfexp 14) := by decide
theorem test_word_gflog : decode 0b00010001_000000000000_111111111111#32 = some (.gflog 4095#12) := by decide
theorem test_word_gfmul : decode 0b00010010_000000001011_000000001101#32 = some (.gfmul 11#12 13#12) := by decide
theorem test_word_genbld : decode 0b00100000_000000000000_000000000101#32 = some (.genbld 5) := by decide
theorem test_word_genrd : decode 0b00100001_000000000011_000000000010#32 = some (.genrd 3 2) := by decide
theorem test_word_rsenc : decode 0b00110000_010011110000_000110010000#32 = some (.rsenc 1264 400) := by decide
theorem test_word_rsencp : decode 0b00110001_111111111111_111111111110#32 = some (.rsencp 4095 4094) := by decide

/-- Section 6.2, the rows that are illegal. -/
theorem test_illegal_words :
    [0x00000001#32, 0x00001000#32, 0x01001008#32, 0x02000000#32, 0x0F000000#32, 0x10001010#32, 0x13000000#32,
      0x20005005#32, 0x22000000#32, 0x32000000#32, 0x40000000#32, 0x80000000#32, 0xFFFFFFFF#32].all
      (fun v => (decode v).isNone) = true := by decide

/-- Section 6.1, the word of each assembler line. -/
theorem test_encode_words :
    [encode .nop, encode (.setw 12), encode (.gfexp 14), encode (.gflog 4095#12), encode (.gfmul 4095#12 4095#12),
      encode (.genbld 5), encode (.genrd 3 2), encode (.rsenc 2 5), encode (.rsencp 7 5)] =
    [0x00000000#32, 0x0100000C#32, 0x1000000E#32, 0x11000FFF#32, 0x12FFFFFF#32, 0x20000005#32, 0x21003002#32,
      0x30002005#32, 0x31007005#32] := by decide

theorem test_assembler : assembler (.gfmul 11#12 13#12) = "GFMUL 11, 13" := by decide

theorem test_table_word : decodeTableWord 32 0x21003002 = some (.genrd 3 2) := by decide

/-! ## The tables (sections 2.1, 2.4, 2.5) -/

theorem test_exp_w4 : (List.range 15).map (expTable .w4) = [1, 2, 4, 8, 3, 6, 12, 11, 5, 10, 7, 14, 15, 13, 9] := by decide
theorem test_log_w4 : (List.range 15).map (fun i => logTable .w4 (i + 1)) =
    [0, 1, 4, 2, 8, 5, 10, 3, 14, 9, 7, 6, 13, 11, 12] := by decide
theorem test_exp_w12 : expTable .w12 100 = 1132 := by decide +kernel
theorem test_log_w10 : logTable .w10 255 = 539 := by decide +kernel

/-! ## Commands: at most two vectors each (sections 3.2, 4, 5.5 and the examples of the rules) -/

theorem test_nop : statusAfter State.reset 0x00000000 = some 0x00000000 := by decide
theorem test_nop_illegal : statusAfter State.reset 0x00000001 = some 0x00000051 := by decide
theorem test_setw_8 : statusAfter State.reset 0x01000008 = some 0x00000800 := by decide
theorem test_setw_5 : statusAfter State.reset 0x01000005 = some 0x00000011 := by decide
theorem test_gfexp_254 : resultStatus (selected .w8) 0x100000FE = some (150, 0x00000800) := by decide +kernel
theorem test_gfexp_15 : resultStatus (selected .w4) 0x1000000F = some (0, 0x00000441) := by decide
theorem test_gflog_255 : resultStatus (selected .w8) 0x110000FF = some (150, 0x00000800) := by decide +kernel
theorem test_gflog_0 : resultStatus (selected .w4) 0x11000000 = some (0, 0x00000441) := by decide
theorem test_gfmul_15_15 : resultStatus (selected .w4) 0x1200F00F = some (10, 0x00000400) := by decide
theorem test_gfmul_16_1 : resultStatus (selected .w4) 0x12010001 = some (0, 0x00000441) := by decide
theorem test_genbld_5 : (afterCommand (selected .w4) 0x20000005).map (fun t => gendegRegister t) = some 5#12 := by decide
theorem test_genbld_15 : statusAfter (selected .w4) 0x2000000F = some 0x00000441 := by decide
theorem test_genrd_7_7 : forBothBases (selected .w4) (resultStatus · 0x21007007) =
    [some (12, 0x00000400), some (13, 0x00000400)] := by decide
theorem test_genrd_3_4 : resultStatus (selected .w4) 0x21003004 = some (0, 0x00000441) := by decide
theorem test_rsenc_2_5 : forBothBases (loaded .w4 [5#12, 6#12]) (bufferAfter · 0x30002005 7) =
    [some ([5, 6, 13, 8, 15, 2, 11], 5, 0x00000400), some ([5, 6, 3, 2, 11, 11, 7], 5, 0x00000400)] := by decide
theorem test_rsenc_bad_word : bufferAfter (loaded .w4 [5#12, 16#12]) 0x30002005 2 =
    some ([5, 16], 0, 0x00000441) := by decide
theorem test_rsencp_10_5 :
    forBothBases (loaded .w8 [72#12, 101#12, 108#12, 108#12, 111#12]) (bufferAfter · 0x3100A005 10) =
      [some ([72, 101, 108, 108, 111, 159, 152, 167, 128, 98], 5, 0x00000800),
        some ([72, 101, 108, 108, 111, 105, 99, 46, 236, 57], 5, 0x00000800)] := by decide +kernel
theorem test_rsencp_3_5 : bufferAfter (loaded .w4 [5#12, 6#12]) 0x31003005 2 =
    some ([5, 6], 0, 0x00000421) := by decide

/-! ## GEN_BASE = 1, and the shift register (sections 4, 5.1) -/

theorem test_generator_base_1 : (genPoly .one .w4 5).map BitVec.toNat = [1, 11, 4, 6, 2, 1] := by decide
theorem test_check_words_base_1 : (rsCheck .one .w4 [5#12, 6#12] 5).map (List.map BitVec.toNat) =
    some [3, 2, 11, 11, 7] := by decide
theorem test_check_words_zero_padded : (rsCheck .zero .w4 [1#12, 5#12] 3).map (List.map BitVec.toNat) =
    some [0, 7, 3] := by decide
theorem test_shift_register : (shiftRegister .zero .w4 [5#12, 6#12] 2).map BitVec.toNat = [2, 1] := by decide

/-! ## Which fault wins (section 6.3) -/

theorem test_fault_order_reset :
    [0x30000000, 0x01001005, 0x10001010, 0x1000000F].map (statusAfter State.reset) =
      [some 0x11, some 0x51, some 0x51, some 0x11] := by decide
theorem test_fault_order_w4 :
    [0x30000014, 0x30FFF000, 0x10001010, 0x31003005, 0x3100500F, 0x3101000F, 0x2100F010].map
      (statusAfter (selected .w4)) =
      [some 0x421, some 0x421, some 0x451, some 0x421, some 0x421, some 0x441, some 0x441] := by decide

/-! ## The window and the resets (section 7, P1 and P3; R120, R121, R44) -/

theorem test_read_id : (afterEvent State.reset (rreg .id)).map State.response = some (.data 0x52534531#32) := by decide
theorem test_wbuf_keeps_12_bits :
    (afterEvent (selected .w4) (wbuf 2 0xFFFFF007#32)).map (fun t => bufRead t 2) = some 7#12 := by decide
theorem test_faulted_ignores_command :
    (afterCommand { selected .w4 with fault := true, err := 4#4 } 0xFF000000).map (fun t => (statusWord t).toNat) =
      some 0x441 := by decide
theorem test_soft_reset :
    (afterEvent { loaded .w4 [5#12] with fault := true, err := 4#4, result := 3#12, gendeg4 := 2#12 } srst).map
      (fun t => ((statusWord t).toNat, t.result, t.gendeg4, bufRead t 0)) = some (0, 0#12, 0#12, 5#12) := by decide
theorem test_hard_reset :
    (afterEvent (loaded .w4 [5#12]) .assertReset).map (fun t => (t.wsel, t.buf, t.inReset)) =
      some (none, [], true) := by decide
theorem test_unmapped_refused : afterEvent State.reset (.read 0x0018#32 32) = none := by decide
theorem test_misaligned_refused : afterEvent State.reset (.read 0x0002#32 32) = none := by decide
theorem test_narrow_refused : afterEvent State.reset (.write 0x0004#32 8 0#32) = none := by decide
theorem test_last_buffer_word :
    (afterEvent State.reset (.write 0x7FFC#32 32 9#32)).map (fun t => bufRead t 4095) = some 9#12 := by decide
theorem test_byte_lane : byteLane 0x52534531#32 3 = 0x52#8 := by decide

end Sys2Proof.Tests
end

