-- ==== Sys2Proof/Tests/Witnesses.lean ====
section
/-! SUPPORT. For every obligation with hypotheses, concrete states and operands that meet them together, clause by clause, at
boundary values where the clause has a range. -/

namespace Sys2Proof.Tests

open Sys2Proof Sys2Proof.Machine

/-- A state in the faulted condition (R108). -/
def faultedState : State := { selected .w4 with fault := true, err := 4#4 }

/-- A state whose BUF[0] is no element of GF(16). -/
def badData : State := loaded .w4 [16#12]

theorem selected_wsel (w : WordSize) : (selected w).wsel = some w := rfl

theorem witness_NopDoesNothing :
    (State.reset.fault = false ∧ fieldOp 0x00000001#32 = 0#8 ∧ fieldB 0x00000001#32 ≠ 0#12) ∧
    (fieldOp 0x00FFF000#32 = 0#8 ∧ fieldA 0x00FFF000#32 ≠ 0#12) ∧
    ∃ t, exec (.setw 4) State.reset = .next t ∧ t.fault = false :=
  ⟨by decide, by decide, _, rfl, rfl⟩

theorem witness_SetwSelectsTheField : (0 < 4096 ∧ 4095 < 4096) ∧
    ∀ n ∈ [0, 5, 11, 13, 4095], n ≠ 4 ∧ n ≠ 6 ∧ n ≠ 8 ∧ n ≠ 10 ∧ n ≠ 12 := by decide

theorem witness_GfexpReadsThePowerTable :
    State.reset.wsel = none ∧
    ((selected .w4).wsel = some .w4 ∧ 15 > 2 ^ WordSize.w4.bits - 2) ∧
    ((selected .w12).wsel = some .w12 ∧ 4095 > 2 ^ WordSize.w12.bits - 2) ∧
    (14 ≤ 2 ^ WordSize.w4.bits - 2 ∧ 4094 ≤ 2 ^ WordSize.w12.bits - 2) := by decide

theorem witness_GflogReadsTheLogTable :
    State.reset.wsel = none ∧
    ((selected .w4).wsel = some .w4 ∧ (16#12 : Elem).toNat > 2 ^ WordSize.w4.bits - 1) ∧
    ((1#12 : Elem) ≠ 0#12 ∧ (1#12 : Elem).toNat ≤ 2 ^ WordSize.w4.bits - 1) ∧
    ((4095#12 : Elem) ≠ 0#12 ∧ (4095#12 : Elem).toNat ≤ 2 ^ WordSize.w12.bits - 1) := by decide

theorem witness_GfmulMultipliesInTheField :
    State.reset.wsel = none ∧
    ((selected .w4).wsel = some .w4 ∧ (16#12 : Elem).toNat > 2 ^ WordSize.w4.bits - 1) ∧
    ((15#12 : Elem).toNat ≤ 2 ^ WordSize.w4.bits - 1 ∧ (15#12 : Elem) ≠ 0#12) ∧
    ((0#12 : Elem).toNat ≤ 2 ^ WordSize.w4.bits - 1 ∧ (1#12 : Elem).toNat ≤ 2 ^ WordSize.w4.bits - 1) := by decide

theorem witness_GenbldRaisesTheCounter :
    State.reset.wsel = none ∧
    ((selected .w4).wsel = some .w4 ∧ 15 > 2 ^ WordSize.w4.bits - 2 ∧ 14 ≤ 2 ^ WordSize.w4.bits - 2) ∧
    (0 ≤ (gendeg (selected .w4) .w4).toNat) ∧ 4094 ≤ 2 ^ WordSize.w12.bits - 2 := by decide

theorem witness_GenrdReadsTheGenerator :
    State.reset.wsel = none ∧
    ((selected .w4).wsel = some .w4 ∧ 15 > 2 ^ WordSize.w4.bits - 2 ∧ 4 > 3) ∧
    (14 ≤ 2 ^ WordSize.w4.bits - 2 ∧ 14 ≤ 14 ∧ 0 ≤ 2 ^ WordSize.w4.bits - 2) := by decide

theorem witness_RsencWritesTheCheckWords :
    ((loaded .w4 [5#12, 6#12]).wsel = some .w4 ∧ 14 ≠ 0 ∧ 2 ≠ 0 ∧ 14 ≤ 2 ^ WordSize.w4.bits - 2 ∧ 2 + 14 ≤ 4096 ∧
      ∀ i < 2, (bufRead (loaded .w4 [5#12, 6#12]) i).toNat < 2 ^ WordSize.w4.bits) ∧
    ((selected .w12).wsel = some .w12 ∧ 1 ≤ 2 ^ WordSize.w12.bits - 2 ∧ 4095 + 1 ≤ 4096 ∧
      ∀ i < 4095, (bufRead (selected .w12) i).toNat < 2 ^ WordSize.w12.bits) :=
  ⟨by decide, by decide, by decide, by decide, fun _ _ => BitVec.isLt _⟩

theorem witness_RsencpWritesTheCheckWords :
    ((loaded .w4 [5#12, 6#12]).wsel = some .w4 ∧ 5 ≠ 0 ∧ 7 > 5 ∧ 5 ≤ 2 ^ WordSize.w4.bits - 2 ∧ 7 ≤ 4095 ∧
      ∀ i < 7 - 5, (bufRead (loaded .w4 [5#12, 6#12]) i).toNat < 2 ^ WordSize.w4.bits) ∧
    ((selected .w12).wsel = some .w12 ∧ 4095 > 4094 ∧ 4094 ≤ 2 ^ WordSize.w12.bits - 2 ∧
      ∀ i < 4095 - 4094, (bufRead (selected .w12) i).toNat < 2 ^ WordSize.w12.bits) :=
  ⟨by decide, by decide, by decide, by decide, fun _ _ => BitVec.isLt _⟩

theorem witness_RsencpIgnoresTheTail :
    (loaded .w4 [5#12, 6#12]).wsel = some .w4 ∧ 5 ≠ 0 ∧ 7 > 5 ∧ 5 ≤ 2 ^ WordSize.w4.bits - 2 ∧ 7 ≤ 4095 ∧
    Memory.wf (loaded .w4 [5#12, 6#12]).buf = true ∧
    (∀ i < 7 - 5, (bufRead (loaded .w4 [5#12, 6#12]) i).toNat < 2 ^ WordSize.w4.bits) ∧
    (7 - 5 ≤ 2 ∧ 2 < 7) ∧ (7 - 5 ≤ 6 ∧ 6 < 7) := by decide

theorem witness_RsencIsIdempotent :
    Memory.wf (loaded .w4 [5#12, 6#12]).buf = true ∧
    (∃ t, exec (.rsenc 2 5) (loaded .w4 [5#12, 6#12]) = .next t ∧ t.fault = false) ∧
    ∃ t, exec (.rsenc 0 5) (loaded .w4 [5#12, 6#12]) = .next t ∧ t.fault = true :=
  ⟨by decide, ⟨_, rfl, by decide⟩, _, rfl, by decide⟩

theorem witness_WordsizeFaults : State.reset.wsel = none ∧
    ∀ n ∈ [0, 2, 5, 7, 14, 16, 4095], n ≠ 4 ∧ n ≠ 6 ∧ n ≠ 8 ∧ n ≠ 10 ∧ n ≠ 12 := by decide

theorem witness_InvalidInputFaults : (selected .w4).wsel = some .w4 ∧ (0 = 0 ∨ 5 = 0) ∧ (5 = 0 ∨ 5 ≤ 5) := by decide

theorem witness_RangeFaults :
    badData.wsel = some .w4 ∧ 15 > 2 ^ WordSize.w4.bits - 2 ∧ (16#12 : Elem).toNat > 2 ^ WordSize.w4.bits - 1 ∧
    (14 > 2 ^ WordSize.w4.bits - 2 ∨ 15 > 14) ∧ (1 ≠ 0 ∧ 4096 ≠ 0 ∧ 4096 + 1 > 4096) ∧ (4098 > 1 ∧ 4098 > 4096) ∧
    (∃ i < 1, (bufRead badData i).toNat ≥ 2 ^ WordSize.w4.bits) ∧ 1 = 6 - 5 := by decide

theorem witness_IllegalWordsFault :
    State.reset.fault = false ∧ decode 0x02000000#32 = none ∧ decode 0x00000001#32 = none ∧
    decode 0x01001000#32 = none ∧ decode 0x20FFF000#32 = none := by decide

theorem witness_FaultsArePrecise : (selected .w4).fault = false ∧
    ∃ t, exec (.gfexp 15) (selected .w4) = .next t ∧ t.fault = true :=
  ⟨rfl, _, rfl, by decide⟩

theorem witness_FirstFailingStepIsLatched :
    faultedState.fault = true ∧ (selected .w4).fault = false ∧ decode 0xFF000000#32 = none ∧
    (decode 0x30000014#32 = some (.rsenc 0 20) ∧ dueFault (selected .w4) (.rsenc 0 20) = some .invalidInput) ∧
    (decode 0x31FFFFFE#32 = some (.rsencp 4095 4094) ∧ dueFault (selected .w4) (.rsencp 4095 4094) = some .range) ∧
    (decode 0x1000000E#32 = some (.gfexp 14) ∧ dueFault (selected .w4) (.gfexp 14) = none) := by decide

theorem witness_FaultedBlockIgnoresCommands :
    faultedState.inReset = false ∧ faultedState.fault = true ∧
    (∀ l ∈ [Location.id, .status, .result, .gendeg, .ctrl, .buf 0, .buf 4095], l ≠ .cmd) ∧
    (isResetEvent (wbuf 4095 1#32) = false ∧ isResetEvent (.write 0x0014#32 32 2#32) = false ∧
      isResetEvent .releaseReset = false) ∧
    ∃ t, step { faultedState with pending := [.write 0x0014#32 32 2#32] } = .next t :=
  ⟨by decide, by decide, by decide, by decide, _, rfl⟩

theorem witness_DegenerateNeverOccurs : (selected .w4).err ≠ 3#4 ∧
    ∃ t, step ((selected .w4).withFetchWord 32 0x30000001) = .next t :=
  ⟨by decide, _, rfl⟩

theorem witness_StepRunsTheDecodedCommand :
    (selected .w4).inReset = false ∧ (selected .w4).fault = false ∧ decode 0x31FFFFFE#32 = some (.rsencp 4095 4094) := by
  decide

theorem witness_RegisterReads : State.reset.inReset = false ∧ State.reset.wsel = none ∧
    (selected .w12).inReset = false ∧ (selected .w12).wsel = some .w12 := by decide

theorem witness_StatusLayout : State.reset.inReset = false ∧ faultedState.inReset = false := by decide

theorem witness_BufferWindow : State.reset.inReset = false ∧ faultedState.inReset = false ∧ 0 < 4096 ∧ 4095 < 4096 := by
  decide

theorem witness_ReadsHaveNoSideEffect :
    (∃ t, step { selected .w4 with pending := .read 0x7FFC#32 32 :: [] } = .next t) ∧
    (0x0010#32 ≠ 0x0004#32 ∧ 0x0010#32 ≠ 0x0014#32 ∧ (0x0010#32).toNat < 0x4000) ∧
    ∃ t, step { selected .w4 with pending := .write 0x0010#32 32 7#32 :: [] } = .next t :=
  ⟨⟨_, rfl⟩, by decide, _, rfl⟩

theorem witness_BusErrorsAreRefused :
    State.reset.inReset = false ∧ 16 ≠ 32 ∧ (0x7FFD#32).toNat % 4 ≠ 0 ∧
    ¬ isMapped (0x0018#32).toNat ∧ ¬ isMapped (0x3FFC#32).toNat ∧ ¬ isMapped (0x8000#32).toNat ∧
    ((0x7FFC#32).toNat % 4 = 0 ∧ isMapped (0x7FFC#32).toNat) ∧ ((0x4000#32).toNat % 4 = 0 ∧ isMapped (0x4000#32).toNat) ∧
    isMapped (0x0014#32).toNat := by
  unfold isMapped; decide

theorem witness_SoftResetKeepsTheBuffer :
    faultedState.inReset = false ∧ (0xFFFFFFFF#32).getLsbD 0 = true ∧ (0xFFFFFFFE#32).getLsbD 0 = false ∧
    faultedState.fault = true ∧ isResetEvent (rreg .status) = false ∧
    ∃ t, step { faultedState with pending := [rreg .status] } = .next t :=
  ⟨by decide, by decide, by decide, by decide, by decide, _, rfl⟩

theorem witness_HardResetForgetsEverything : (hardReset (selected .w4)).inReset = true := by decide

theorem witness_EncodeMacroLeavesTheCodeword :
    State.reset.fault = false ∧ State.reset.inReset = false ∧
    ({ State.reset with pending := encodeMacro WordSize.w4.bits [15#32] 14 } : State).pending =
      encodeMacro WordSize.w4.bits [15#32] 14 ∧
    [15#32] ≠ [] ∧ 14 ≠ 0 ∧ 14 ≤ 2 ^ WordSize.w4.bits - 2 ∧ [15#32].length + 14 ≤ 4096 ∧
    ∀ v ∈ [15#32], v.toNat < 2 ^ WordSize.w4.bits :=
  ⟨rfl, rfl, rfl, by decide, by decide, by decide, by decide, by simp [WordSize.bits]⟩

theorem witness_DecodeOfEncode : Instr.wellFormed (.rsencp 4095 0) = true ∧ Instr.wellFormed (.setw 4095) = true := by decide

theorem witness_EncodeOfDecode : decode 0x12FFFFFF#32 = some (.gfmul 4095#12 4095#12) := by decide

theorem reset_invariant : Invariant State.reset where
  latch := by decide
  code := by decide
  degree := fun w => by cases w <;> decide
  unselected := fun _ => ⟨rfl, fun w => by cases w <;> rfl⟩
  memory := rfl
  held := fun h => by cases h

/-- A block of either GEN_BASE has a step, the other commands have a next state, and a field is selected. -/
theorem witness_GenBaseIsAParameter :
    (∀ base : GenBase, ∃ t, step (State.resetFor base) = .next t) ∧
    (∃ t, exec (.genbld 14) (selected .w4) = .next t ∧ t.fault = false ∧ t.gendeg4 = 14#12) ∧
    (selected .w4).wsel = some .w4 :=
  ⟨fun _ => ⟨_, rfl⟩, ⟨_, rfl, by decide, by decide⟩, rfl⟩

theorem witness_StepKeepsTheInvariant : ∃ s t, Invariant s ∧ step s = .next t :=
  ⟨State.reset, _, reset_invariant, rfl⟩

theorem witness_WhoWritesWhat : ∃ t, exec (.genrd 14 14) (selected .w4) = .next t ∧ t.result ≠ 0#12 :=
  ⟨_, rfl, by decide⟩

theorem witness_CountersNeverDecrease : isResetEvent (command (.genbld 14)) = false ∧
    ∃ t, step { selected .w4 with pending := [command (.genbld 14)] } = .next t :=
  ⟨by decide, _, rfl⟩

theorem witness_CachesAreUnobservable : forgetCaches (selected .w4) = forgetCaches { selected .w4 with gendeg4 := 14#12 } := rfl

theorem witness_BufferReadAfterWrite :
    0 < [7#12].length ∧ (4094 < 4095 ∨ 4095 + 1 ≤ 4094) ∧ Memory.wf State.reset.buf = true ∧ 4095 + [7#12].length ≤ 4096 := by
  decide

theorem witness_LogInvertsExp : (4094 ≤ 2 ^ WordSize.w12.bits - 2) ∧ 1 ≤ 15 ∧ 15 ≤ 2 ^ WordSize.w4.bits - 1 := by decide

theorem witness_TableProperties :
    14 ≤ 2 ^ WordSize.w4.bits - 2 ∧ (1 ≤ 15 ∧ 15 ≤ 2 ^ WordSize.w4.bits - 1) ∧ 3 < WordSize.w4.bits := by decide

theorem witness_FieldLaws : (15#12 : Elem).toNat < 2 ^ WordSize.w4.bits ∧ (4095#12 : Elem).toNat < 2 ^ WordSize.w12.bits := by
  decide

theorem witness_TableProductIsPolynomialProduct : (255#12 : Elem).toNat < 2 ^ WordSize.w8.bits := by decide

theorem witness_PolyNormStripsLeadingZeros : ([0#12, 0#12] : Poly) ≠ [] := by decide

theorem witness_PolyMulCoefficients :
    (([0#12, 3#12] : Poly) ≠ [] ∧ ([0#12, 3#12] : Poly) ≠ [0#12] ∧ 2 < [0#12, 3#12].length + [1#12, 2#12].length - 1) ∧
    (Normalised [15#12] ∧ Normalised [1#12, 15#12] ∧ allInField .w4 [15#12] ∧ allInField .w4 [1#12, 15#12]) ∧
    allInField .w4 [0#12, 15#12] := by
  simp [allInField, Normalised, WordSize.bits]

theorem witness_GeneratorIsMonic : 14 ≤ 2 ^ WordSize.w4.bits - 2 ∧ 4094 ≤ 2 ^ WordSize.w12.bits - 2 := by decide

theorem witness_GeneratorConstantTerm : 14 ≤ 2 ^ WordSize.w4.bits - 2 ∧ 0 ≤ 2 ^ WordSize.w12.bits - 2 := by decide

theorem witness_GeneratorRoots : 14 ≤ 2 ^ WordSize.w4.bits - 2 ∧ 13 < 14 ∧ 0 < 14 ∧ 13 ≠ 0 := by decide

theorem witness_CacheLoopBuildsTheGenerators : 7 ≤ 3 + 4 ∧ 14 ≤ 2 ^ WordSize.w4.bits - 2 ∧ WordSize.w6 ≠ WordSize.w4 := by decide

theorem witness_DivisionLeavesARemainder :
    Normalised [5#12, 6#12, 0#12] ∧ allInField .w4 [5#12, 6#12, 0#12] ∧ ([1#12, 3#12, 2#12] : Poly).headD 0#12 = 1#12 ∧
    allInField .w4 [1#12, 3#12, 2#12] :=
  ⟨.inr (by decide), by simp [allInField, WordSize.bits], rfl, by simp [allInField, WordSize.bits]⟩

theorem witness_RemainderIsUnique :
    ([1#12, 3#12, 2#12] : Poly).headD 0#12 = 1#12 ∧ allInField .w4 [1#12, 3#12, 2#12] ∧ allInField .w4 [0#12, 15#12] ∧
    ([0#12, 15#12] : Poly) ≠ [] ∧ Normalised [15#12, 0#12] ∧ allInField .w4 [15#12, 0#12] ∧
    [15#12, 0#12].length < [1#12, 3#12, 2#12].length :=
  ⟨rfl, by simp [allInField, WordSize.bits], by simp [allInField, WordSize.bits], by decide, .inr (by decide),
    by simp [allInField, WordSize.bits], by decide⟩

/-- The hypotheses of CheckWordsHaveLengthE, CodewordHasZeroRemainder and ShiftRegisterComputesTheCheckWords. -/
theorem witness_CheckWords :
    ([0#12, 15#12] : Poly) ≠ [] ∧ allInField .w4 [0#12, 15#12] ∧ 1 ≤ 14 ∧ 14 ≤ 2 ^ WordSize.w4.bits - 2 ∧
    ∀ x ∈ ([0#12] : Poly), x = 0#12 :=
  ⟨by decide, by simp [allInField, WordSize.bits], by decide, by decide, by simp⟩

theorem witness_CodewordVanishesAtTheRoots :
    ([15#12] : Poly) ≠ [] ∧ allInField .w4 [15#12] ∧ 1 ≤ 14 ∧ 14 ≤ 2 ^ WordSize.w4.bits - 2 ∧ 13 < 14 :=
  ⟨by decide, by simp [allInField, WordSize.bits], by decide, by decide, by decide⟩

theorem witness_CheckWordsAreLinear :
    ([15#12] : Poly) ≠ [] ∧ [15#12].length = [1#12].length ∧ allInField .w4 [15#12] ∧ allInField .w4 [1#12] ∧ 1 ≤ 14 ∧
    14 ≤ 2 ^ WordSize.w4.bits - 2 :=
  ⟨by decide, by decide, by simp [allInField, WordSize.bits], by simp [allInField, WordSize.bits], by decide, by decide⟩

theorem witness_SingleWordCheckWords :
    (15#12 : Elem).toNat < 2 ^ WordSize.w4.bits ∧ 1 ≤ 14 ∧ 14 ≤ 2 ^ WordSize.w4.bits - 2 := by decide

end Sys2Proof.Tests
end

section
/-! SUPPORT. What one access outside reset does, through the location it names: the rules of a read and of a write (R22 to R27,
R33, R38), and the number the STATUS word stands for (R24). -/

namespace Sys2Proof.Machine

/-- What a location reads as depends neither on the events in store nor on the port's last answer. -/
@[simp] theorem readLocation_answered (s : State) (rest : List BusEvent) (r : Response) (l : Location) :
    readLocation (answered s rest r) l = readLocation s l := by
  cases l <;> rfl

/-- Outside reset, the block answers a read with the word of the location it names. -/
theorem acceptEvent_read {s : State} {off : Word} {width : Nat} {l : Location} (hr : s.inReset = false)
    (ht : target off width = .ok l) :
    acceptEvent s (.read off width) = .next { s with response := .data (readLocation s l) } := by
  simp only [acceptEvent, if_neg (Bool.eq_false_iff.mp hr), ht]

/-- Outside reset, the block takes a write as the location it names says. -/
theorem acceptEvent_write {s : State} {off : Word} {width : Nat} {l : Location} (v : Word) (hr : s.inReset = false)
    (ht : target off width = .ok l) :
    acceptEvent s (.write off width v) = writeLocation v { s with response := .written } l := by
  simp only [acceptEvent, if_neg (Bool.eq_false_iff.mp hr), ht]

/-- Outside reset, a read answers the word of the location it names and changes nothing else. -/
theorem step_read {s : State} {off : Word} {width : Nat} {l : Location} (rest : List BusEvent)
    (hr : s.inReset = false) (ht : target off width = .ok l) :
    step { s with pending := .read off width :: rest } = .next (answered s rest (.data (readLocation s l))) := by
  rw [← readLocation_answered s rest s.response l]
  exact acceptEvent_read (s := { s with pending := rest }) hr ht

/-- Outside reset, a write acts as the location it names says, on the state with the access taken and answered. -/
theorem step_write {s : State} {off : Word} {width : Nat} {l : Location} (rest : List BusEvent) (v : Word)
    (hr : s.inReset = false) (ht : target off width = .ok l) :
    step { s with pending := .write off width v :: rest } = writeLocation v (answered s rest .written) l :=
  acceptEvent_write (s := { s with pending := rest }) v hr ht

/-- The offset of STATUS (R21). -/
theorem target_status : target 0x0008#32 32 = .ok .status := target_ok (by decide) (by decide)

/-- A concatenation as a number: the low part's width is the weight of the high part. -/
theorem toNat_append_eq_add {m n : Nat} (x : BitVec m) (y : BitVec n) : (x ++ y).toNat = x.toNat * 2 ^ n + y.toNat := by
  rw [BitVec.toNat_append, ← Nat.shiftLeft_add_eq_or_of_lt y.isLt, Nat.shiftLeft_eq]

/-- The four bits of WSEL hold the word size, 0 with no field selected (R16, R24). -/
theorem wselCode_toNat (s : State) : (wselCode s.wsel).toNat = wselValue s := by
  unfold wselValue
  cases s.wsel with
  | none => rfl
  | some w => cases w <;> rfl

/-- The number STATUS stands for (R24). -/
theorem statusWord_toNat (s : State) :
    (statusWord s).toNat = (if s.fault then 1 else 0) + 16 * s.err.toNat + 256 * wselValue s := by
  have hfault : (BitVec.ofBool s.fault).toNat = if s.fault then 1 else 0 := by cases s.fault <;> rfl
  simp only [statusWord, toNat_append_eq_add, wselCode_toNat, hfault, BitVec.toNat_ofNat]
  omega

end Sys2Proof.Machine
end

section
/-! PROOFS. The register window's statements about STATUS (R24). -/

namespace Sys2Proof.Machine

/-- Settles O23: STATUS is a mapped location, so a read answers `statusWord`, whose concatenated bit fields have the weights 1,
16 and 256, and a write reaches a location that ignores it. -/
theorem statusLayout : Obligations.StatusLayout := by
  unfold Obligations.StatusLayout
  constructor
  · intro s rest hr
    exact ⟨statusWord s, step_read rest hr target_status, statusWord_toNat s⟩
  · intro s rest v hr
    exact step_write rest v hr target_status

end Sys2Proof.Machine
end

section
/-! SUPPORT. Which accesses outside reset have a step (R32, R39, R44): the offset of each location, the refusals, and what a
step that was answered says of its access; no command and no write to a mapped location is refused (R100). -/

namespace Sys2Proof.Machine

/-- A location is found at its own offset only (R21, R39). -/
theorem locate_eq_some {off : Nat} {l : Location} (ha : off % 4 = 0) (h : locate off = some l) :
    off = (offsetOf l).toNat := by
  unfold locate at h
  repeat' split at h
  all_goals cases h
  all_goals
    simp only [offsetOf, BitVec.toNat_ofNat]
    omega

/-- The offset of BUF[i] (R33, R39). -/
theorem target_buf {i : Nat} (hi : i < 4096) : target (BitVec.ofNat 32 (0x4000 + 4 * i)) 32 = .ok (.buf i) := by
  have hoff : (BitVec.ofNat 32 (0x4000 + 4 * i)).toNat = 0x4000 + 4 * i := by
    rw [BitVec.toNat_ofNat]
    omega
  refine target_ok ?_ ?_ <;> rw [hoff]
  · omega
  · exact locate_buf hi

/-- The map of R39 names exactly the multiples of 4 at which a location is found. -/
theorem isMapped_iff_locate {off : Nat} (ha : off % 4 = 0) : isMapped off ↔ ∃ l, locate off = some l := by
  constructor
  · rintro (rfl | rfl | rfl | rfl | rfl | rfl | ⟨hlo, hhi⟩)
    iterate 6 exact ⟨_, rfl⟩
    obtain ⟨i, rfl⟩ : ∃ i, off = 0x4000 + 4 * i := ⟨(off - 0x4000) / 4, by omega⟩
    exact ⟨.buf i, locate_buf (by omega)⟩
  · rintro ⟨l, hl⟩
    have hoff := locate_eq_some ha hl
    cases l with
    | buf i =>
      have hi := locate_buf_lt hl
      simp only [offsetOf, BitVec.toNat_ofNat, Config.bufWords] at hoff hi
      unfold isMapped
      omega
    | _ => rw [hoff]; unfold isMapped; decide

/-- An access names a location exactly when it is 32 bits wide at a mapped multiple of 4 (R32, R37, R44). -/
theorem exists_target_ok_iff {off : Word} {width : Nat} :
    (∃ l, target off width = .ok l) ↔ width = 32 ∧ off.toNat % 4 = 0 ∧ isMapped off.toNat := by
  constructor
  · rintro ⟨l, ht⟩
    obtain ⟨hw, ha, hl⟩ := target_ok_inv ht
    exact ⟨hw, ha, (isMapped_iff_locate ha).mpr ⟨l, hl⟩⟩
  · rintro ⟨rfl, ha, hm⟩
    obtain ⟨l, hl⟩ := (isMapped_iff_locate ha).mp hm
    exact ⟨l, target_ok ha hl⟩

/-- While rst_n is asserted a read is refused (R120). -/
theorem step_read_inReset {s : State} (rest : List BusEvent) (off : Word) (width : Nat) (hr : s.inReset = true) :
    step { s with pending := .read off width :: rest } = .refused .accessDuringReset :=
  if_pos hr

/-- While rst_n is asserted a write is refused (R120). -/
theorem step_write_inReset {s : State} (rest : List BusEvent) (off : Word) (width : Nat) (v : Word)
    (hr : s.inReset = true) :
    step { s with pending := .write off width v :: rest } = .refused .accessDuringReset :=
  if_pos hr

/-- Outside reset, a read that names no location is refused (R44). -/
theorem step_read_error {s : State} {off : Word} {width : Nat} {e : BusError} (rest : List BusEvent)
    (hr : s.inReset = false) (ht : target off width = .error e) :
    step { s with pending := .read off width :: rest } = .refused (.busError e) := by
  rw [step_event]
  simp [acceptEvent, hr, ht]

/-- Outside reset, a write that names no location is refused (R44). -/
theorem step_write_error {s : State} {off : Word} {width : Nat} {e : BusError} (rest : List BusEvent) (v : Word)
    (hr : s.inReset = false) (ht : target off width = .error e) :
    step { s with pending := .write off width v :: rest } = .refused (.busError e) := by
  rw [step_event]
  simp [acceptEvent, hr, ht]

/-- What a read that was answered did: it named a location, and the answer is that location's word. -/
theorem step_read_inv {s t : State} {rest : List BusEvent} {off : Word} {width : Nat}
    (h : step { s with pending := .read off width :: rest } = .next t) :
    ∃ l, target off width = .ok l ∧ t = answered s rest (.data (readLocation s l)) := by
  cases hr : s.inReset with
  | true => rw [step_read_inReset rest off width hr] at h; cases h
  | false =>
    cases ht : target off width with
    | error e => rw [step_read_error rest hr ht] at h; cases h
    | ok l => rw [step_read rest hr ht] at h; cases h; exact ⟨l, rfl, rfl⟩

/-- What a write that was answered did: it named a location, and acted as that location says. -/
theorem step_write_inv {s t : State} {rest : List BusEvent} {off : Word} {width : Nat} {v : Word}
    (h : step { s with pending := .write off width v :: rest } = .next t) :
    ∃ l, target off width = .ok l ∧ writeLocation v (answered s rest .written) l = .next t := by
  cases hr : s.inReset with
  | true => rw [step_write_inReset rest off width v hr] at h; cases h
  | false =>
    cases ht : target off width with
    | error e => rw [step_write_error rest v hr ht] at h; cases h
    | ok l => rw [step_write rest v hr ht] at h; exact ⟨l, rfl, h⟩

/-- A location other than CMD, CTRL and the words of BUF ignores a write (R38). -/
theorem writeLocation_readOnly {l : Location} (v : Word) (s : State) (hcmd : l ≠ .cmd) (hctrl : l ≠ .ctrl)
    (hbuf : ∀ i, l ≠ .buf i) : writeLocation v s l = .next s := by
  cases l with
  | cmd => exact absurd rfl hcmd
  | ctrl => exact absurd rfl hctrl
  | buf i => exact absurd rfl (hbuf i)
  | _ => rfl

/-- With no field selected the answer is a fault, so a next state; else it is the continuation's. -/
theorem withField_next (s : State) {k : WordSize → Outcome} (hk : ∀ w, ∃ t, k w = .next t) :
    ∃ t, withField s k = .next t := by
  cases hs : s.wsel with
  | none => exact ⟨_, withField_none hs k⟩
  | some w => rw [withField_some hs]; exact hk w

/-- An encode answers a next state, also where it faults. -/
theorem encodeBlock_next (w : WordSize) (k e : Nat) (s : State) : ∃ t, encodeBlock w k e s = .next t := by
  obtain ⟨-, hrange⟩ | ⟨-, ⟨-, hdegenerate⟩ | ⟨c, -, hdone⟩⟩ := encodeBlock_cases w k e s
  · exact ⟨_, hrange⟩
  · exact ⟨_, hdegenerate⟩
  · exact ⟨_, hdone⟩

/-- Every command answers a next state: a fault is a latch, not a stop (R100, R102). -/
theorem exec_next (i : Instr) (s : State) : ∃ t, exec i s = .next t := by
  cases i with
  | nop => exact ⟨s, rfl⟩
  | setw n =>
    change ∃ t, execSetw n s = .next t
    unfold execSetw
    split <;> exact ⟨_, rfl⟩
  | gfexp i => exact withField_next s fun w => by split <;> exact ⟨_, rfl⟩
  | gflog x => exact withField_next s fun w => by split <;> exact ⟨_, rfl⟩
  | gfmul a b => exact withField_next s fun w => by split <;> exact ⟨_, rfl⟩
  | genbld d => exact withField_next s fun w => by split <;> exact ⟨_, rfl⟩
  | genrd d j =>
    exact withField_next s fun w => by
      split
      · exact ⟨_, rfl⟩
      · split <;> exact ⟨_, rfl⟩
  | rsenc k e =>
    exact withField_next s fun w => by
      split
      · exact ⟨_, rfl⟩
      · exact encodeBlock_next w k e s
  | rsencp n e =>
    exact withField_next s fun w => by
      split
      · exact ⟨_, rfl⟩
      · exact encodeBlock_next w (n - e) e s

/-- Every write to CMD answers a next state, faulted or not, legal word or not (R100). -/
theorem commandWrite_next (v : Word) (s : State) : ∃ t, commandWrite v s = .next t := by
  obtain ⟨-, hignored⟩ | ⟨-, -, hillegal⟩ | ⟨-, i, -, hexec⟩ := commandWrite_cases v s
  · exact ⟨_, hignored⟩
  · exact ⟨_, hillegal⟩
  · rw [hexec]; exact exec_next i s

/-- Every write to a location answers a next state. -/
theorem writeLocation_next (v : Word) (s : State) (l : Location) : ∃ t, writeLocation v s l = .next t := by
  cases l with
  | cmd => exact commandWrite_next v s
  | _ => exact ⟨_, rfl⟩

end Sys2Proof.Machine
end

section
/-! PROOFS. The window's statements: BUF (R33), reads and read-only registers (R38), bus errors (R44). -/

namespace Sys2Proof.Machine

/-- Settles O24: the offset names BUF[i], so the access reads or writes that word, and the laws of `bufWrite` give the frame. -/
theorem bufferWindow : Obligations.BufferWindow := by
  unfold Obligations.BufferWindow
  intro s rest i hr hi
  refine ⟨step_read rest hr (target_buf hi), fun v => ?_⟩
  refine ⟨bufWrite (answered s rest .written) i (v.setWidth 12), step_write rest v hr (target_buf hi), rfl,
    bufRead_bufWrite_same _ i _, fun a ha => ?_⟩
  calc bufRead (bufWrite (answered s rest .written) i (v.setWidth 12)) a
      = bufRead (answered s rest .written) a := bufRead_bufWrite_other _ _ ha
    _ = bufRead s a := bufRead_congr a rfl rfl

/-- Settles O25: an answered access named a location. A read answers that location's word and no more; a write below the buffer
window at neither CMD nor CTRL reached a location that ignores it. -/
theorem readsHaveNoSideEffect : Obligations.ReadsHaveNoSideEffect := by
  unfold Obligations.ReadsHaveNoSideEffect
  constructor
  · intro s t rest off width h
    obtain ⟨l, -, rfl⟩ := step_read_inv h
    rfl
  · intro s t rest off width v hcmd hctrl hlow h
    obtain ⟨l, ht, hwrite⟩ := step_write_inv h
    obtain ⟨-, ha, hl⟩ := target_ok_inv ht
    obtain rfl : off = offsetOf l := BitVec.eq_of_toNat_eq (locate_eq_some ha hl)
    have hcmd' : l ≠ .cmd := mt (congrArg offsetOf) hcmd
    have hctrl' : l ≠ .ctrl := mt (congrArg offsetOf) hctrl
    have hbuf : ∀ i, l ≠ .buf i := by
      rintro i rfl
      have hi := locate_buf_lt hl
      simp only [offsetOf, BitVec.toNat_ofNat, Config.bufWords] at hlow hi
      omega
    rw [writeLocation_readOnly v _ hcmd' hctrl' hbuf] at hwrite
    cases hwrite
    rfl

/-- Settles O26: the accesses that name no location are the bus errors, and those that name one are answered. -/
theorem busErrorsAreRefused : Obligations.BusErrorsAreRefused := by
  unfold Obligations.BusErrorsAreRefused
  intro s rest off width v hr
  constructor
  · intro hbad
    cases ht : target off width with
    | error e => exact ⟨e, step_read_error rest hr ht, step_write_error rest v hr ht⟩
    | ok l =>
      obtain ⟨hw, ha, hm⟩ := exists_target_ok_iff.mp ⟨l, ht⟩
      obtain hw' | ha' | hm' := hbad
      · exact absurd hw hw'
      · exact absurd ha ha'
      · exact absurd hm hm'
  · intro hw ha hm
    obtain ⟨l, ht⟩ := exists_target_ok_iff.mpr ⟨hw, ha, hm⟩
    refine ⟨⟨_, step_read rest hr ht⟩, ?_⟩
    rw [step_write rest v hr ht]
    exact writeLocation_next v _ l

end Sys2Proof.Machine
end

section
/-! SUPPORT. The legal command words (R46, R47): the decoder on each opcode, and the mask and match list read field by field. -/

namespace Sys2Proof

/-- The OP values of the nine commands (R46). -/
def legalOpcodes : List (BitVec 8) :=
  [0x00#8, 0x01#8, 0x10#8, 0x11#8, 0x12#8, 0x20#8, 0x21#8, 0x30#8, 0x31#8]

theorem legalOpcodes_cases {op : BitVec 8} (h : op ∈ legalOpcodes) :
    op = 0x00#8 ∨ op = 0x01#8 ∨ op = 0x10#8 ∨ op = 0x11#8 ∨ op = 0x12#8 ∨ op = 0x20#8 ∨ op = 0x21#8 ∨
      op = 0x30#8 ∨ op = 0x31#8 := by
  simpa [legalOpcodes] using h

/-- A word decodes to nothing when its OP is none of the nine (R47). -/
theorem decodeFields_of_not_mem {op : BitVec 8} (h : op ∉ legalOpcodes) (a b : BitVec 12) :
    decodeFields op a b = none := by
  simp only [legalOpcodes, List.mem_cons, List.not_mem_nil, or_false, not_or] at h
  simp [decodeFields, h]

/-- OP 0x00 is NOP exactly when both operand fields are 0 (R47). -/
@[simp] theorem decodeFields_nop (a b : BitVec 12) :
    decodeFields 0x00#8 a b = if a = 0#12 ∧ b = 0#12 then some .nop else none := by
  by_cases hb : b = 0#12 <;> simp [decodeFields, decodeOneOperand, hb]

/-! The commands of one operand, with A = 0 (R46, R47). -/

@[simp] theorem decodeFields_setw (a b : BitVec 12) :
    decodeFields 0x01#8 a b = if a = 0#12 then some (.setw b.toNat) else none := rfl

@[simp] theorem decodeFields_gfexp (a b : BitVec 12) :
    decodeFields 0x10#8 a b = if a = 0#12 then some (.gfexp b.toNat) else none := rfl

@[simp] theorem decodeFields_gflog (a b : BitVec 12) :
    decodeFields 0x11#8 a b = if a = 0#12 then some (.gflog b) else none := rfl

@[simp] theorem decodeFields_genbld (a b : BitVec 12) :
    decodeFields 0x20#8 a b = if a = 0#12 then some (.genbld b.toNat) else none := rfl

/-! The commands of two operands, legal whatever the fields hold (R46, R47). -/

@[simp] theorem decodeFields_gfmul (a b : BitVec 12) : decodeFields 0x12#8 a b = some (.gfmul a b) := rfl

@[simp] theorem decodeFields_genrd (a b : BitVec 12) :
    decodeFields 0x21#8 a b = some (.genrd a.toNat b.toNat) := rfl

@[simp] theorem decodeFields_rsenc (a b : BitVec 12) :
    decodeFields 0x30#8 a b = some (.rsenc a.toNat b.toNat) := rfl

@[simp] theorem decodeFields_rsencp (a b : BitVec 12) :
    decodeFields 0x31#8 a b = some (.rsencp a.toNat b.toNat) := rfl

/-- The illegal field values, exactly (R47). -/
theorem decodeFields_eq_none_iff (op : BitVec 8) (a b : BitVec 12) :
    decodeFields op a b = none ↔
      op ∉ legalOpcodes ∨ (op = 0x00#8 ∧ (a ≠ 0#12 ∨ b ≠ 0#12)) ∨
        (op ∈ [0x01#8, 0x10#8, 0x11#8, 0x20#8] ∧ a ≠ 0#12) := by
  by_cases hop : op ∈ legalOpcodes
  · obtain rfl | rfl | rfl | rfl | rfl | rfl | rfl | rfl | rfl := legalOpcodes_cases hop
    all_goals simp [legalOpcodes, imp_iff_not_or]
  · simp [decodeFields_of_not_mem hop, hop]

/-- Two words are equal when their three fields are (R45). -/
theorem word_ext_fields {u v : Word} (hop : fieldOp u = fieldOp v) (ha : fieldA u = fieldA v)
    (hb : fieldB u = fieldB v) : u = v := by
  apply BitVec.eq_of_toNat_eq
  have hop := congrArg BitVec.toNat hop
  have ha := congrArg BitVec.toNat ha
  have hb := congrArg BitVec.toNat hb
  rw [fieldOp_toNat, fieldOp_toNat] at hop
  rw [fieldA_toNat, fieldA_toNat] at ha
  rw [fieldB_toNat, fieldB_toNat] at hb
  omega

/-- The match of a row of R47's list, on the three fields of a word. -/
def fieldsMatch (op : BitVec 8) (a b : BitVec 12) (r : MaskRow) : Bool :=
  op &&& fieldOp r.mask == fieldOp r.value && a &&& fieldA r.mask == fieldA r.value &&
    b &&& fieldB r.mask == fieldB r.value

theorem wordMatches_eq_fieldsMatch (v : Word) :
    wordMatches v = fieldsMatch (fieldOp v) (fieldA v) (fieldB v) := by
  funext r
  have hop : fieldOp (v &&& r.mask) = fieldOp v &&& fieldOp r.mask := BitVec.extractLsb'_and
  have ha : fieldA (v &&& r.mask) = fieldA v &&& fieldA r.mask := BitVec.extractLsb'_and
  have hb : fieldB (v &&& r.mask) = fieldB v &&& fieldB r.mask := BitVec.extractLsb'_and
  rw [Bool.eq_iff_iff]
  simp only [wordMatches, fieldsMatch, Bool.and_eq_true, beq_iff_eq, ← hop, ← ha, ← hb]
  constructor
  · intro h
    simp only [h, and_self]
  · rintro ⟨⟨hop', ha'⟩, hb'⟩
    exact word_ext_fields hop' ha' hb'

/-- Each row's mask covers OP, and its OP is one of the nine. -/
theorem maskRows_op : ∀ r ∈ maskRows, fieldOp r.mask = 0xFF#8 ∧ fieldOp r.value ∈ legalOpcodes := by decide

/-- A word that matches a row has one of the nine OP values. -/
theorem fieldsMatch_op_mem {op : BitVec 8} {a b : BitVec 12} {r : MaskRow} (hr : r ∈ maskRows)
    (h : fieldsMatch op a b r = true) : op ∈ legalOpcodes := by
  obtain ⟨hmask, hvalue⟩ := maskRows_op r hr
  simp only [fieldsMatch, Bool.and_eq_true, beq_iff_eq, hmask] at h
  obtain ⟨⟨hop, -⟩, -⟩ := h
  have hall : op &&& 0xFF#8 = op := BitVec.and_allOnes
  rwa [← hop, hall] at hvalue

/-- The rows of R47's list that three fields match are the row of the command they decode to, or none. -/
theorem filter_maskRows_fieldsMatch (op : BitVec 8) (a b : BitVec 12) :
    (maskRows.filter (fieldsMatch op a b)).map MaskRow.mnemonic = (decodeFields op a b).toList.map mnemonicOf := by
  by_cases hop : op ∈ legalOpcodes
  · have hfull : ∀ x : BitVec 12, x &&& 0xFFF#12 = x := fun _ => BitVec.and_allOnes
    -- Of the nine rows only the one of this OP is left, under the condition on A and B the decoder tests.
    obtain rfl | rfl | rfl | rfl | rfl | rfl | rfl | rfl | rfl := legalOpcodes_cases hop
    all_goals simp [maskRows, List.filter_cons, fieldsMatch, fieldOp, fieldA, fieldB, hfull,
      mnemonicOf, apply_ite Option.toList, apply_ite (List.map _)]
  · have hnone : maskRows.filter (fieldsMatch op a b) = [] :=
      List.filter_eq_nil_iff.mpr fun r hr hmatch => hop (fieldsMatch_op_mem hr hmatch)
    rw [hnone, decodeFields_of_not_mem hop]
    rfl

end Sys2Proof
end

section
/-! PROOFS. The encoding's statement about the illegal words (R47, R107). -/

namespace Sys2Proof.Machine

/-- An illegal word written to CMD while not faulted latches ERR_OPCODE and changes nothing else (R107). -/
theorem commandWrite_illegal {s : State} {v : Word} (hf : s.fault = false) (hd : decode v = none) :
    commandWrite v s = .next (latched s 5#4) := by
  obtain ⟨hfault, -⟩ | ⟨-, -, hillegal⟩ | ⟨-, i, hsome, -⟩ := commandWrite_cases v s
  · rw [hf] at hfault; cases hfault
  · exact hillegal
  · rw [hd] at hsome; cases hsome

/-- Settles O15: `decode` and the mask and match list both read a word through its three fields, where a split on the nine
opcodes compares them; the fault is the illegal case of a write to CMD. -/
theorem illegalWordsFault : Obligations.IllegalWordsFault := by
  unfold Obligations.IllegalWordsFault
  refine ⟨fun v => decodeFields_eq_none_iff _ _ _, fun v => ?_, fun s v => commandWrite_illegal⟩
  rw [wordMatches_eq_fieldsMatch]
  exact filter_maskRows_fieldsMatch _ _ _

end Sys2Proof.Machine
end

section
/-! SUPPORT. The power sequence of each field (R52, R54): the running value of the loop is an iterate of `double`, its minimal
period is 2^w - 1, and so EXP[w] is a bijection and LOG[w] its inverse (R53). -/

namespace Sys2Proof.Machine

open Function

/-- EXP[w][i] is the i-th iterate of the doubling from 1 (R52). -/
theorem expTable_eq_iterate (w : WordSize) (i : Nat) : expTable w i = (double w)^[i] 1 := by
  induction i with
  | zero => rfl
  | succ i ih => rw [expTable_succ, iterate_succ_apply', ih]

/-- Below 2^w the doubling is the multiplication by 2, so the sequence starts with the powers of 2 (R54 (b)). -/
theorem expTable_eq_two_pow {w : WordSize} {i : Nat} (hi : i < w.bits) : expTable w i = 2 ^ i := by
  induction i with
  | zero => rfl
  | succ i ih =>
    have hlt : 2 ^ i <<< 1 < w.size := by
      rw [Nat.shiftLeft_eq, ← Nat.pow_succ]
      exact Nat.pow_lt_pow_right (by decide) hi
    rw [expTable_succ, ih (Nat.lt_of_succ_lt hi), double, if_neg (Nat.not_le.mpr hlt), Nat.shiftLeft_eq, ← Nat.pow_succ]

/-- EXP[w][1] = 2. -/
@[simp] theorem expTable_one (w : WordSize) : expTable w 1 = 2 :=
  expTable_eq_two_pow (i := 1) (by cases w <;> decide)

/-- The first value that reaches 2^w is reduced by PRIM(w) (R54 (b)). -/
theorem expTable_bits (w : WordSize) : expTable w w.bits = w.prim - 2 ^ w.bits := by cases w <;> decide

/-- The element of each field whose double is 1 (R54 (e)). -/
def halfOf : WordSize → Nat
  | .w4 => 9
  | .w6 => 33
  | .w8 => 150
  | .w10 => 516
  | .w12 => 2100

@[simp] theorem double_halfOf (w : WordSize) : double w (halfOf w) = 1 := by cases w <;> decide

/-- The last entry of EXP[w] (R54 (e)). -/
theorem expTable_degMax (w : WordSize) : expTable w w.degMax = halfOf w := by cases w <;> decide +kernel

/-- After 2^w - 1 doublings the running value is 1 again (R54 (c)). -/
@[simp] theorem expTable_order (w : WordSize) : expTable w w.order = 1 := by
  rw [order_eq, expTable_succ, expTable_degMax, double_halfOf]

/-- The prime factors of 2^w - 1, with multiplicity. -/
def orderFactors : WordSize → List Nat
  | .w4 => [3, 5]
  | .w6 => [3, 3, 7]
  | .w8 => [3, 5, 17]
  | .w10 => [3, 11, 31]
  | .w12 => [3, 3, 5, 7, 13]

theorem orderFactors_prod (w : WordSize) : (orderFactors w).prod = w.order := by cases w <;> rfl

theorem prime_of_mem_orderFactors (w : WordSize) : ∀ p ∈ orderFactors w, p.Prime := by
  cases w <;> norm_num [orderFactors]

/-- At no maximal proper divisor of 2^w - 1 is the running value 1. -/
theorem expTable_order_div_ne_one (w : WordSize) : ∀ p ∈ orderFactors w, expTable w (w.order / p) ≠ 1 := by
  cases w <;> decide +kernel

/-- A period of a point is its minimal one when no quotient of it by a prime factor is a period. -/
theorem minimalPeriod_eq_of_div_prime {α : Type} {f : α → α} {x : α} {n : Nat} (hx : IsPeriodicPt f n x)
    (hdiv : ∀ p, p.Prime → p ∣ n → ¬ IsPeriodicPt f (n / p) x) : minimalPeriod f x = n := by
  obtain ⟨c, hc⟩ := hx.minimalPeriod_dvd
  have hc1 : c = 1 := by
    by_contra hne
    obtain ⟨p, hp, d, rfl⟩ := Nat.exists_prime_and_dvd hne
    have hquot : n / p = minimalPeriod f x * d := by
      rw [hc, Nat.mul_left_comm, Nat.mul_div_cancel_left _ hp.pos]
    refine hdiv p hp ⟨minimalPeriod f x * d, by rw [hc, Nat.mul_left_comm]⟩ ?_
    rw [hquot]
    exact (isPeriodicPt_minimalPeriod f x).mul_const d
  rw [hc, hc1, Nat.mul_one]

/-- A number of doublings that leads from 1 back to 1 is a period of 1. -/
theorem isPeriodicPt_one_iff (w : WordSize) (n : Nat) : IsPeriodicPt (double w) n 1 ↔ expTable w n = 1 := by
  rw [expTable_eq_iterate]
  exact Iff.rfl

theorem order_pos (w : WordSize) : 0 < w.order := by cases w <;> decide

/-- The power sequence has the period 2^w - 1 and no smaller one: 2 is a primitive element (R51, R54 (c)). -/
theorem minimalPeriod_double_one (w : WordSize) : minimalPeriod (double w) 1 = w.order := by
  refine minimalPeriod_eq_of_div_prime ((isPeriodicPt_one_iff w _).mpr (expTable_order w)) ?_
  intro p hp hdvd hperiod
  rw [← orderFactors_prod] at hdvd
  have hmem : p ∈ orderFactors w :=
    mem_list_primes_of_dvd_prod hp.prime (fun q hq => (prime_of_mem_orderFactors w q hq).prime) hdvd
  exact expTable_order_div_ne_one w p hmem ((isPeriodicPt_one_iff w _).mp hperiod)

/-- The power sequence repeats after 2^w - 1 steps, beyond the table's end too (R54 (c)). -/
theorem expTable_add_order (w : WordSize) (i : Nat) : expTable w (i + w.order) = expTable w i := by
  rw [expTable_eq_iterate, iterate_add_apply, ← expTable_eq_iterate w w.order, expTable_order, expTable_eq_iterate]

/-- No two entries of EXP[w] are equal (R54 (a)). -/
theorem expTable_inj {w : WordSize} {i j : Nat} (hi : i < w.order) (hj : j < w.order)
    (h : expTable w i = expTable w j) : i = j := by
  rw [← minimalPeriod_double_one] at hi hj
  rw [expTable_eq_iterate, expTable_eq_iterate] at h
  exact iterate_injOn_Iio_minimalPeriod hi hj h

/-- No running value is 0, since 0 would stay 0 and the value 1 would not come again (R54 (a)). -/
theorem expTable_pos (w : WordSize) (i : Nat) : 0 < expTable w i := by
  refine Nat.pos_of_ne_zero fun hzero => ?_
  have hstays : ∀ k, expTable w (i + k) = 0 := by
    intro k
    induction k with
    | zero => exact hzero
    | succ k ih => rw [← Nat.add_assoc, expTable_succ, ih, double_zero]
  have hone : expTable w (w.order * (i + 1)) = 1 :=
    (isPeriodicPt_one_iff w _).mp (((isPeriodicPt_one_iff w _).mpr (expTable_order w)).mul_const (i + 1))
  have hle : i ≤ w.order * (i + 1) :=
    (Nat.le_succ i).trans (Nat.le_mul_of_pos_left _ (order_pos w))
  rw [← Nat.add_sub_cancel' hle, hstays] at hone
  cases hone

theorem expTable_le_order (w : WordSize) (i : Nat) : expTable w i ≤ w.order := by
  have hlt := expTable_lt w i
  rw [size_eq] at hlt
  exact Nat.le_of_lt_succ hlt

/-- Every non-zero field element is an entry of EXP[w]: 2^w - 1 different entries fill 1..2^w-1 (R54 (a)). -/
theorem exists_expTable_eq {w : WordSize} {x : Nat} (hpos : 0 < x) (hle : x ≤ w.order) :
    ∃ i < w.order, expTable w i = x := by
  have hmaps : Set.MapsTo (expTable w) (Finset.range w.order) (Finset.Icc 1 w.order) := fun i _ =>
    Finset.mem_coe.mpr (Finset.mem_Icc.mpr ⟨expTable_pos w i, expTable_le_order w i⟩)
  have hinj : Set.InjOn (expTable w) (Finset.range w.order) := fun i hi j hj =>
    expTable_inj (Finset.mem_range.mp hi) (Finset.mem_range.mp hj)
  have hsurj := Finset.surjOn_of_injOn_of_card_le _ hmaps hinj (by simp)
  obtain ⟨i, hi, hix⟩ := hsurj (Finset.mem_coe.mpr (Finset.mem_Icc.mpr ⟨hpos, hle⟩))
  exact ⟨i, Finset.mem_range.mp hi, hix⟩

/-- LOG[w] undoes EXP[w] (R53). -/
theorem logTable_expTable {w : WordSize} {i : Nat} (hi : i < w.order) : logTable w (expTable w i) = i := by
  obtain ⟨hlt, heq⟩ := logTable_spec hi rfl
  exact expTable_inj hlt hi heq

/-- The logarithm of a non-zero field element is an index of EXP[w], and EXP[w] undoes LOG[w] there (R53). -/
theorem expTable_logTable {w : WordSize} {x : Nat} (hpos : 0 < x) (hle : x ≤ w.order) :
    logTable w x < w.order ∧ expTable w (logTable w x) = x := by
  obtain ⟨i, hi, hx⟩ := exists_expTable_eq hpos hle
  exact logTable_spec hi hx

@[simp] theorem logTable_one (w : WordSize) : logTable w 1 = 0 := logTable_expTable (order_pos w)

@[simp] theorem logTable_two (w : WordSize) : logTable w 2 = 1 := by
  rw [← expTable_one w]
  exact logTable_expTable (by cases w <;> decide)

theorem toNat_pos {x : Elem} (hx : x ≠ 0#12) : 0 < x.toNat :=
  Nat.pos_of_ne_zero fun h => hx (BitVec.eq_of_toNat_eq h)

/-- 1 is the unit of the field product (R56, R62). -/
theorem gfMul_one_left {w : WordSize} {b : Elem} (hb : b.toNat ≤ w.order) : gfMul w 1#12 b = b := by
  by_cases hzero : b = 0#12
  · rw [hzero, gfMul_zero_right]
  · obtain ⟨hlt, hexp⟩ := expTable_logTable (toNat_pos hzero) hb
    apply BitVec.eq_of_toNat_eq
    rw [gfMul_nonzero (by decide) hzero, expElem_toNat]
    change expTable w ((logTable w 1 + logTable w b.toNat) % w.order) = b.toNat
    rw [logTable_one, Nat.zero_add, Nat.mod_eq_of_lt hlt, hexp]

/-- The last entry of EXP[w] is the inverse of 2: their logarithms add up to 2^w - 1 (R54 (e)). -/
theorem gfMul_expElem_degMax_two (w : WordSize) : gfMul w (expElem w w.degMax) 2#12 = 1#12 := by
  have hne : expElem w w.degMax ≠ 0#12 := fun h => by
    have := expTable_pos w w.degMax
    rw [← expElem_toNat, h] at this
    exact Nat.lt_irrefl 0 this
  have hlog : logTable w (expTable w w.degMax) = w.degMax :=
    logTable_expTable (by rw [order_eq]; exact Nat.lt_succ_self _)
  rw [gfMul_nonzero hne (by decide), expElem_toNat, hlog]
  change expElem w ((w.degMax + logTable w 2) % w.order) = 1#12
  rw [logTable_two, ← order_eq, Nat.mod_self]
  rfl

end Sys2Proof.Machine
end

section
/-! SUPPORT. The decoder undoes the encoder (R45 to R48). -/

namespace Sys2Proof

/-- The fields of a well-formed command's word hold its OP and operands. -/
theorem encode_fields : ∀ i : Instr, Laws.EncodeFields.Statement i
  | .nop => Laws.EncodeFields.nop
  | .setw w => Laws.EncodeFields.setw w
  | .gfexp i => Laws.EncodeFields.gfexp i
  | .gflog x => Laws.EncodeFields.gflog x
  | .gfmul a b => Laws.EncodeFields.gfmul a b
  | .genbld d => Laws.EncodeFields.genbld d
  | .genrd d j => Laws.EncodeFields.genrd d j
  | .rsenc k e => Laws.EncodeFields.rsenc k e
  | .rsencp n e => Laws.EncodeFields.rsencp n e

/-- A command's OP with its operands in the fields is read as that command. -/
theorem decodeFields_operands {i : Instr} {a b : BitVec 12} (ha : a.toNat = operandA i) (hb : b.toNat = operandB i) :
    decodeFields (opcodeOf i) a b = some i := by
  have hzero {v : BitVec 12} (hv : v.toNat = 0) : v = 0#12 := BitVec.eq_of_toNat_eq hv
  cases i with
  | nop => rw [hzero ha, hzero hb]; rfl
  | setw w => cases hb; rw [hzero ha]; rfl
  | gfexp n => cases hb; rw [hzero ha]; rfl
  | gflog x => rw [hzero ha, BitVec.eq_of_toNat_eq hb]; rfl
  | gfmul x y => rw [BitVec.eq_of_toNat_eq ha, BitVec.eq_of_toNat_eq hb]; rfl
  | genbld d => cases hb; rw [hzero ha]; rfl
  | genrd d j => cases ha; cases hb; rfl
  | rsenc k e => cases ha; cases hb; rfl
  | rsencp n e => cases ha; cases hb; rfl

/-- The word of a well-formed command decodes to that command. -/
theorem decode_encode {i : Instr} (h : i.wellFormed = true) : decode (encode i) = some i := by
  obtain ⟨hop, ha, hb⟩ := encode_fields i h
  rw [decode, BitVec.eq_of_toNat_eq hop]
  exact decodeFields_operands ha hb

end Sys2Proof
end

section
/-! SUPPORT. What SETW and the three field commands do: a rule per outcome (R59 to R62), the faults with their numbers (R101). -/

namespace Sys2Proof.Machine

/-- SETW selects the field it names (R59). -/
theorem exec_setw_bits (s : State) (w : WordSize) : exec (.setw w.bits) s = .next { s with wsel := some w } := by
  change execSetw w.bits s = _
  rw [execSetw, wordSizeOf_bits]

/-- SETW of a number that is no word size faults (R59). -/
theorem exec_setw_none (s : State) {n : Nat} (h : wordSizeOf n = none) : exec (.setw n) s = .next (latched s 1#4) := by
  change execSetw n s = _
  rw [execSetw, h]
  rfl

/-- With no field selected a command that needs one faults (R104). -/
theorem withField_none_latched {s : State} (h : s.wsel = none) (k : WordSize → Outcome) :
    withField s k = .next (latched s 1#4) :=
  withField_none h k

/-- A command whose range check fails in the selected field faults (R106). -/
theorem withField_range {s : State} {w : WordSize} (h : s.wsel = some w) {bad : WordSize → Prop} [DecidablePred bad]
    (hbad : bad w) (k : WordSize → Outcome) :
    withField s (fun w => if bad w then faulted s .range else k w) = .next (latched s 4#4) := by
  rw [withField_some h, if_pos hbad]
  rfl

/-- A command whose range check passes in the selected field has its effect. -/
theorem withField_inRange {s : State} {w : WordSize} (h : s.wsel = some w) {bad : WordSize → Prop} [DecidablePred bad]
    (hok : ¬ bad w) (k : WordSize → Outcome) :
    withField s (fun w => if bad w then faulted s .range else k w) = k w := by
  rw [withField_some h, if_neg hok]

/-- The element test of an operand fails exactly above 2^w - 1 (R51, R77). -/
theorem not_inField_iff (w : WordSize) (v : Elem) : (!inField w v) = true ↔ w.order < v.toNat := by
  rw [Bool.not_eq_true', Bool.eq_false_iff, Ne, inField_iff, size_eq]
  omega

theorem exec_gfexp_range {s : State} {w : WordSize} {i : Nat} (h : s.wsel = some w) (hi : w.degMax < i) :
    exec (.gfexp i) s = .next (latched s 4#4) :=
  withField_range h hi _

/-- GFEXP's effect (R60). -/
theorem exec_gfexp {s : State} {w : WordSize} {i : Nat} (h : s.wsel = some w) (hi : i ≤ w.degMax) :
    exec (.gfexp i) s = .next { s with result := expElem w i } :=
  withField_inRange h (Nat.not_lt.mpr hi) _

theorem exec_gflog_range {s : State} {w : WordSize} {x : Elem} (h : s.wsel = some w)
    (hx : x = 0#12 ∨ w.order < x.toNat) : exec (.gflog x) s = .next (latched s 4#4) :=
  withField_range h (hx.imp_right (not_inField_iff w x).mpr) _

/-- GFLOG's effect (R61). -/
theorem exec_gflog {s : State} {w : WordSize} {x : Elem} (h : s.wsel = some w) (hzero : x ≠ 0#12)
    (hx : x.toNat ≤ w.order) : exec (.gflog x) s = .next { s with result := logElem w x } :=
  withField_inRange h (not_or.mpr ⟨hzero, fun hbad => Nat.not_lt.mpr hx ((not_inField_iff w x).mp hbad)⟩) _

theorem exec_gfmul_range {s : State} {w : WordSize} {a b : Elem} (h : s.wsel = some w)
    (hab : w.order < a.toNat ∨ w.order < b.toNat) : exec (.gfmul a b) s = .next (latched s 4#4) :=
  withField_range h (hab.imp (not_inField_iff w a).mpr (not_inField_iff w b).mpr) _

/-- GFMUL's effect (R62). -/
theorem exec_gfmul {s : State} {w : WordSize} {a b : Elem} (h : s.wsel = some w) (ha : a.toNat ≤ w.order)
    (hb : b.toNat ≤ w.order) : exec (.gfmul a b) s = .next { s with result := gfMul w a b } :=
  withField_inRange h (not_or.mpr ⟨fun hbad => Nat.not_lt.mpr ha ((not_inField_iff w a).mp hbad),
    fun hbad => Nat.not_lt.mpr hb ((not_inField_iff w b).mp hbad)⟩) _

end Sys2Proof.Machine
end

section
/-! PROOFS. The statements about the tables and the field commands (R53, R54, R58 to R62). In them 2^w - 1 and 2^w - 2 stand
written out for `WordSize.order` and `WordSize.degMax`. -/

namespace Sys2Proof.Machine

/-- The indices of EXP[w] are those below 2^w - 1 (R52). -/
theorem lt_order_iff (w : WordSize) (i : Nat) : i < w.order ↔ i ≤ w.degMax := by
  rw [order_eq, Nat.lt_succ_iff]

/-- Settles O40: EXP[w] is injective on its indices and reaches every non-zero element, so the search for a logarithm ends at
the one index there is. -/
theorem logInvertsExp : Obligations.LogInvertsExp := by
  unfold Obligations.LogInvertsExp
  intro w
  refine ⟨fun i hi => logTable_expTable ((lt_order_iff w i).mpr hi), fun x hpos hle => ?_, logTable_one w, logTable_two w⟩
  obtain ⟨hlt, hexp⟩ := expTable_logTable hpos hle
  exact ⟨(lt_order_iff w _).mp hlt, hexp⟩

/-- Settles O41: 2 is a primitive element, its minimal period being 2^w - 1; the bijection and the inverse table follow. -/
theorem tableProperties : Obligations.TableProperties := by
  unfold Obligations.TableProperties
  refine ⟨fun w => ?_, expTable_degMax .w4, expTable_degMax .w6, expTable_degMax .w8, expTable_degMax .w10,
    expTable_degMax .w12⟩
  have hindex : ∀ {i : Nat}, i ≤ 2 ^ w.bits - 2 → i < w.order := fun {i} => (lt_order_iff w i).mpr
  refine ⟨fun i _ => ⟨expTable_pos w i, expTable_le_order w i⟩, fun i j hi hj => expTable_inj (hindex hi) (hindex hj),
    fun x hpos hle => ?_, fun i hi => expTable_eq_two_pow hi, expTable_bits w, expTable_add_order w,
    fun x hpos hle => (expTable_logTable hpos hle).2, fun i hi => logTable_expTable (hindex hi),
    gfMul_expElem_degMax_two w⟩
  obtain ⟨i, hi, hx⟩ := exists_expTable_eq hpos hle
  exact ⟨i, (lt_order_iff w i).mp hi, hx⟩

/-- Settles O2: the operand names a word size or none. -/
theorem setwSelectsTheField : Obligations.SetwSelectsTheField := by
  unfold Obligations.SetwSelectsTheField
  refine ⟨fun n hn => ?_, exec_setw_bits, fun s n h4 h6 h8 h10 h12 => ?_⟩
  · exact decode_encode (i := .setw n) ((fitsField_iff n).mpr hn)
  · exact exec_setw_none s (wordSizeOf_none ⟨h4, h6, h8, h10, h12⟩)

/-- Settles O3: the rules of GFEXP, and the range of the table. -/
theorem gfexpReadsThePowerTable : Obligations.GfexpReadsThePowerTable := by
  unfold Obligations.GfexpReadsThePowerTable
  refine ⟨fun i hi => ?_, fun s i h => withField_none_latched h _, fun s w i => exec_gfexp_range,
    fun s w i => exec_gfexp, fun w => ⟨expTable_zero w, gfMul_expElem_degMax_two w⟩,
    fun w i _ => ⟨(expTable_pos w i).ne', expTable_lt w i⟩⟩
  exact decode_encode (i := .gfexp i) ((fitsField_iff i).mpr hi)

/-- Settles O4: the rules of GFLOG, and the range of the logarithm of a non-zero element. -/
theorem gflogReadsTheLogTable : Obligations.GflogReadsTheLogTable := by
  unfold Obligations.GflogReadsTheLogTable
  refine ⟨fun x => decode_encode (i := .gflog x) rfl, fun s x h => withField_none_latched h _,
    fun s w x => exec_gflog_range, fun s w x h hzero hx => ⟨exec_gflog h hzero hx, ?_⟩,
    fun w => ⟨logTable_one w, logTable_two w⟩⟩
  obtain ⟨hlt, -⟩ := expTable_logTable (toNat_pos hzero) hx
  exact (lt_order_iff w _).mp hlt

/-- Settles O5: the rules of GFMUL, and the three cases of the table product. -/
theorem gfmulMultipliesInTheField : Obligations.GfmulMultipliesInTheField := by
  unfold Obligations.GfmulMultipliesInTheField
  refine ⟨fun a b => decode_encode (i := .gfmul a b) rfl, fun s a b h => withField_none_latched h _,
    fun s w a b => exec_gfmul_range, fun s w a b h ha hb => ⟨exec_gfmul h ha hb, ?_, ?_, ?_⟩⟩
  · rintro (rfl | rfl)
    · exact gfMul_zero_left w b
    · exact gfMul_zero_right w a
  · intro hane hbne
    rw [gfMul_nonzero hane hbne, expElem_toNat]
    rfl
  · rintro rfl
    exact gfMul_one_left hb

end Sys2Proof.Machine
end

section
/-! SUPPORT. The normal form of a coefficient sequence (R63). -/

namespace Sys2Proof.Machine

/-- A leading zero does not change the normal form. -/
@[simp] theorem polyNorm_zero_cons (p : Poly) : polyNorm (0#12 :: p) = polyNorm p := by
  cases p <;> rfl

@[simp] theorem polyNorm_zeros (n : Nat) : polyNorm (zeros n) = [0#12] := by
  induction n with
  | zero => rfl
  | succ n ih => rw [zeros_succ, polyNorm_zero_cons, ih]

/-- The normal form is normalised (R9). -/
theorem normalised_polyNorm (p : Poly) : Normalised (polyNorm p) := by
  induction p with
  | nil => exact .inl rfl
  | cons c p ih =>
    by_cases hc : c = 0#12
    · rw [hc, polyNorm_zero_cons]; exact ih
    · rw [polyNorm_of_head p hc]; exact .inr hc

/-- Only leading zeros are removed. -/
theorem exists_eq_zeros_append_polyNorm {p : Poly} (hp : p ≠ []) : ∃ n, p = zeros n ++ polyNorm p := by
  induction p with
  | nil => exact absurd rfl hp
  | cons c p ih =>
    by_cases hc : c = 0#12
    · subst hc
      by_cases hnil : p = []
      · exact ⟨0, by rw [hnil]; rfl⟩
      · obtain ⟨n, hn⟩ := ih hnil
        refine ⟨n + 1, ?_⟩
        rw [polyNorm_zero_cons, zeros_succ, List.cons_append, ← hn]
    · exact ⟨0, (polyNorm_of_head p hc).symm⟩

/-- A normalised polynomial other than [0] starts with a non-zero coefficient (R9). -/
theorem Normalised.exists_cons {p : Poly} (h : Normalised p) (hp : p ≠ [0#12]) :
    ∃ c p', p = c :: p' ∧ c ≠ 0#12 := by
  have hhead := h.resolve_left hp
  cases p with
  | nil => exact absurd rfl hhead
  | cons c p' => exact ⟨c, p', rfl, hhead⟩

end Sys2Proof.Machine
end

section
/-! SUPPORT. The coefficients of a product (R65): the rows are added up to the convolution of the two sequences; the leading
coefficient; and the reduced form of a product by a two-term factor. -/

namespace Sys2Proof.Machine

/-- The m-th coefficient as R65 gives it: the xor of p[i]·q[m-i]. -/
def convolution (w : WordSize) (p q : Poly) (m : Nat) : Elem :=
  ((List.range (m + 1)).map (fun i => gfMul w (p.getD i 0#12) (q.getD (m - i) 0#12))).foldl (fun x y => x ^^^ y) 0#12

/-- The first factor's leading coefficient contributes the term of i = 0, its other coefficients one position lower. -/
theorem convolution_cons_succ (w : WordSize) (c : Elem) (p q : Poly) (m : Nat) :
    convolution w (c :: p) q (m + 1) = gfMul w c (q.getD (m + 1) 0#12) ^^^ convolution w p q m := by
  have hlower : (fun i => gfMul w ((c :: p).getD i 0#12) (q.getD (m + 1 - i) 0#12)) ∘ Nat.succ =
      fun i => gfMul w (p.getD i 0#12) (q.getD (m - i) 0#12) := by
    funext i
    simp [Nat.add_sub_add_right]
  rw [convolution, List.range_succ_eq_map, List.map_cons, List.map_map, hlower, List.foldl_cons, BitVec.xor_comm,
    List.foldl_assoc]
  rfl

@[simp] theorem convolution_nil (w : WordSize) (q : Poly) (m : Nat) : convolution w [] q m = 0#12 := by
  simp only [convolution, List.getD_nil, gfMul_zero_left, List.foldl_map]
  exact List.foldl_fixed' (fun _ => BitVec.xor_self) _

theorem zeros_getD (n m : Nat) : (zeros n).getD m 0#12 = 0#12 := by
  simp [zeros]

/-- `addInto` adds position by position, a missing coefficient counting as 0. -/
theorem addInto_getD (ts r : Poly) (m : Nat) :
    (addInto ts r).getD m 0#12 = ts.getD m 0#12 ^^^ r.getD m 0#12 := by
  induction ts generalizing r m with
  | nil => simp [addInto]
  | cons t ts ih =>
    cases r with
    | nil => simp [addInto]
    | cons c r =>
      cases m with
      | zero => rfl
      | succ m => exact ih r m

/-- One row of the multiplication. -/
theorem mulRows_cons_cons (w : WordSize) (c d : Elem) (p q : Poly) :
    mulRows w (c :: p) (d :: q) = gfMul w c d :: addInto (q.map (gfMul w c)) (mulRows w p (d :: q)) := rfl

/-- Scaling by c commutes with reading a coefficient, also past the end. -/
theorem map_gfMul_getD (w : WordSize) (c : Elem) (q : Poly) (m : Nat) :
    (q.map (gfMul w c)).getD m 0#12 = gfMul w c (q.getD m 0#12) := by
  have h := List.getD_map q 0#12 (gfMul w c) (n := m)
  rwa [gfMul_zero_right] at h

/-- The rows add up to the coefficients of R65. -/
theorem mulRows_getD (w : WordSize) (p : Poly) {q : Poly} (hq : q ≠ []) (m : Nat) :
    (mulRows w p q).getD m 0#12 = convolution w p q m := by
  obtain ⟨d, q, rfl⟩ := List.exists_cons_of_ne_nil hq
  induction p generalizing m with
  | nil => rw [convolution_nil]; exact zeros_getD _ m
  | cons c p ih =>
    rw [mulRows_cons_cons]
    cases m with
    | zero => simp [convolution]
    | succ m =>
      rw [convolution_cons_succ, List.getD_cons_succ, addInto_getD, map_gfMul_getD, ih, List.getD_cons_succ]

@[simp] theorem polyMul_zero_left (w : WordSize) (q : Poly) : polyMul w [0#12] q = [0#12] := if_pos (.inl rfl)

@[simp] theorem polyMul_zero_right (w : WordSize) (p : Poly) : polyMul w p [0#12] = [0#12] := if_pos (.inr rfl)

theorem polyMul_eq_mulRows {p q : Poly} (w : WordSize) (hp : p ≠ [0#12]) (hq : q ≠ [0#12]) :
    polyMul w p q = mulRows w p q :=
  if_neg (not_or.mpr ⟨hp, hq⟩)

/-- A factor that starts with a non-zero coefficient is not [0]. -/
theorem cons_ne_zero_poly {c : Elem} (p : Poly) (hc : c ≠ 0#12) : c :: p ≠ [0#12] := fun h =>
  hc (List.head_eq_of_cons_eq h)

/-- The leading coefficient of a product is the product of the leading coefficients (R65). -/
theorem polyMul_cons_cons {c d : Elem} (w : WordSize) (p q : Poly) (hc : c ≠ 0#12) (hd : d ≠ 0#12) :
    polyMul w (c :: p) (d :: q) = gfMul w c d :: addInto (q.map (gfMul w c)) (mulRows w p (d :: q)) :=
  polyMul_eq_mulRows w (cons_ne_zero_poly p hc) (cons_ne_zero_poly q hd)

theorem expElem_ne_zero (w : WordSize) (i : Nat) : expElem w i ≠ 0#12 := fun h => by
  have hpos := expTable_pos w i
  rw [← expElem_toNat, h] at hpos
  exact Nat.lt_irrefl 0 hpos

/-- The field has no zero divisors (R56). -/
theorem gfMul_ne_zero {w : WordSize} {a b : Elem} (ha : a ≠ 0#12) (hb : b ≠ 0#12) : gfMul w a b ≠ 0#12 := by
  rw [gfMul_nonzero ha hb]
  exact expElem_ne_zero w _

/-- A word added into the first coefficient of a two-term product takes the place of the 0 there. -/
theorem addInto_zipWith_xor (t : Elem) (p ys : Poly) :
    addInto [t] (List.zipWith (fun x y => x ^^^ y) (p ++ [0#12]) (0#12 :: ys)) =
      List.zipWith (fun x y => x ^^^ y) (p ++ [0#12]) (t :: ys) := by
  cases p <;> simp [addInto, gfAdd, BitVec.xor_comm]

/-- The rows of a product by [1, r] (R65). -/
theorem mulRows_two_terms {w : WordSize} {p : Poly} (r : Elem) (hp : allInField w p) :
    mulRows w p [1#12, r] = List.zipWith (fun x y => x ^^^ y) (p ++ [0#12]) (0#12 :: p.map (gfMul w r)) := by
  induction p with
  | nil => rfl
  | cons c p ih =>
    obtain ⟨hc, hp⟩ := List.forall_mem_cons.mp hp
    have hle : c.toNat ≤ w.order := Nat.le_pred_of_lt hc
    rw [mulRows_cons_cons, ih hp, List.map_singleton, addInto_zipWith_xor, gfMul_comm w c 1#12, gfMul_one_left hle,
      gfMul_comm w c r]
    simp

end Sys2Proof.Machine
end

section
/-! SUPPORT. The generators (R66, R68 (a)) and the cache that holds them (R67). -/

namespace Sys2Proof.Machine

/-- The generator of degree d is monic and has d + 1 coefficients (R68 (a)). -/
theorem genPoly_monic (base : GenBase) (w : WordSize) (d : Nat) :
    ∃ p : Poly, genPoly base w d = 1#12 :: p ∧ p.length = d := by
  induction d with
  | zero => exact ⟨[], rfl, rfl⟩
  | succ d ih =>
    obtain ⟨p, hgen, hlen⟩ := ih
    have hone : gfMul w 1#12 1#12 = 1#12 := gfMul_one_left (order_pos w)
    rw [genPoly, hgen, polyMul_cons_cons w _ _ (by decide) (by decide), hone]
    exact ⟨_, rfl, by simp [mulRows_length, hlen]⟩

@[simp] theorem genPoly_length (base : GenBase) (w : WordSize) (d : Nat) : (genPoly base w d).length = d + 1 := by
  obtain ⟨p, hgen, hlen⟩ := genPoly_monic base w d
  rw [hgen, List.length_cons, hlen]

@[simp] theorem genPoly_getD_zero (base : GenBase) (w : WordSize) (d : Nat) :
    (genPoly base w d).getD 0 0#12 = 1#12 := by
  obtain ⟨p, hgen, -⟩ := genPoly_monic base w d
  rw [hgen, List.getD_cons_zero]

@[simp] theorem cacheUpTo_length (base : GenBase) (w : WordSize) (n : Nat) : (cacheUpTo base w n).length = n + 1 := by
  simp [cacheUpTo]

/-- Entry d of the cache is gen_poly(w, d) (R67). -/
theorem cacheUpTo_getElem? (base : GenBase) (w : WordSize) {n d : Nat} (hd : d ≤ n) :
    (cacheUpTo base w n)[d]? = some (genPoly base w d) := by
  simp [cacheUpTo, Nat.lt_succ_of_le hd]

theorem cacheUpTo_succ (base : GenBase) (w : WordSize) (n : Nat) :
    cacheUpTo base w (n + 1) = cacheUpTo base w n ++ [genPoly base w (n + 1)] := by
  simp [cacheUpTo, List.range_succ]

/-- A turn of the cache loop appends the next generator, so m turns lead from degree n to degree n + m (R67). -/
theorem extendCache_cacheUpTo (base : GenBase) (w : WordSize) (n m : Nat) :
    extendCache base w m (cacheUpTo base w n) = cacheUpTo base w (n + m) := by
  induction m generalizing n with
  | zero => rfl
  | succ m ih =>
    have hlast : (cacheUpTo base w n).getD n [1#12] = genPoly base w n := by
      rw [List.getD_eq_getElem?_getD, cacheUpTo_getElem? base w (Nat.le_refl n), Option.getD_some]
    rw [extendCache, cacheUpTo_length, Nat.add_sub_cancel, hlast]
    change extendCache base w m (cacheUpTo base w n ++ [genPoly base w (n + 1)]) = _
    rw [← cacheUpTo_succ, ih, Nat.add_right_comm, Nat.add_assoc]

/-- build raises the counter and nothing else (R67). -/
theorem build_eq_raisedTo (s : State) (w : WordSize) (d : Nat) : build s w d = raisedTo s w d := build_eq s w d

/-- A degree already held is not built again (R67). -/
theorem build_of_le {s : State} {w : WordSize} {d : Nat} (hd : d ≤ (gendeg s w).toNat) : build s w d = s :=
  if_neg (Nat.not_lt.mpr hd)

theorem gendeg_build_of_le_degMax {s : State} {w : WordSize} {d : Nat} (hd : d ≤ w.degMax) :
    (gendeg (build s w d) w).toNat = max (gendeg s w).toNat d :=
  gendeg_build (Nat.lt_of_le_of_lt hd (degMax_lt w))

end Sys2Proof.Machine
end

section
/-! SUPPORT. What GENBLD and GENRD do: a rule per outcome (R69, R70). -/

namespace Sys2Proof.Machine

theorem exec_genbld_range {s : State} {w : WordSize} {d : Nat} (h : s.wsel = some w) (hd : w.degMax < d) :
    exec (.genbld d) s = .next (latched s 4#4) :=
  withField_range h hd _

/-- GENBLD's effect (R69). -/
theorem exec_genbld {s : State} {w : WordSize} {d : Nat} (h : s.wsel = some w) (hd : d ≤ w.degMax) :
    exec (.genbld d) s = .next (build s w d) :=
  withField_inRange h (Nat.not_lt.mpr hd) _

/-- GENRD's two range checks fault alike (R70). -/
theorem exec_genrd_range {s : State} {w : WordSize} {d j : Nat} (h : s.wsel = some w) (hdj : w.degMax < d ∨ d < j) :
    exec (.genrd d j) s = .next (latched s 4#4) := by
  change execGenrd d j s = _
  rw [execGenrd, withField_some h]
  by_cases hd : w.degMax < d
  · rw [if_pos hd]; rfl
  · rw [if_neg hd, if_pos (hdj.resolve_left hd)]; rfl

/-- GENRD's effect (R70). -/
theorem exec_genrd {s : State} {w : WordSize} {d j : Nat} (h : s.wsel = some w) (hd : d ≤ w.degMax) (hj : j ≤ d) :
    exec (.genrd d j) s = .next { build s w d with result := (genPoly s.genBase w d).getD j 0#12 } := by
  change execGenrd d j s = _
  rw [execGenrd, withField_some h, if_neg (Nat.not_lt.mpr hd), if_neg (Nat.not_lt.mpr hj)]

end Sys2Proof.Machine
end

section
/-! PROOFS. The statements about polynomials, the generator cache and its commands (R63, R65, R67, R69, R70). In them 2^w - 2
stands written out for `WordSize.degMax`. -/

namespace Sys2Proof.Machine

/-- Settles O44: a leading zero is the only thing normalisation takes away, one at a time. -/
theorem polyNormStripsLeadingZeros : Obligations.PolyNormStripsLeadingZeros := by
  unfold Obligations.PolyNormStripsLeadingZeros
  exact ⟨rfl, polyNorm_zeros, fun p hp => ⟨normalised_polyNorm p, exists_eq_zeros_append_polyNorm hp⟩⟩

/-- Settles O45: the rows of the multiplication add up to the convolution; its leading coefficient is a product of two non-zero
elements, so no leading zero arises; by [1, r] a row has two terms. -/
theorem polyMulCoefficients : Obligations.PolyMulCoefficients := by
  unfold Obligations.PolyMulCoefficients
  refine ⟨fun w p => ⟨polyMul_zero_right w p, polyMul_zero_left w p⟩, fun w p q _ hqnil hp hq => ?_,
    fun w p q hpn hqn hp hq _ _ => ?_, fun w p r _ hp hfield => ?_⟩
  · rw [polyMul_eq_mulRows w hp hq]
    exact ⟨mulRows_length w p hqnil, fun m _ => mulRows_getD w p hqnil m⟩
  · obtain ⟨c, p, rfl, hc⟩ := hpn.exists_cons hp
    obtain ⟨d, q, rfl, hd⟩ := hqn.exists_cons hq
    rw [polyMul_cons_cons w p q hc hd, polyNorm_of_head _ (gfMul_ne_zero hc hd)]
  · rw [polyMul_eq_mulRows w hp (by simp), mulRows_two_terms r hfield]

/-- Settles O50: the loop goes through the caches of consecutive degrees; `build` raises one counter. -/
theorem cacheLoopBuildsTheGenerators : Obligations.CacheLoopBuildsTheGenerators := by
  unfold Obligations.CacheLoopBuildsTheGenerators
  constructor
  · intro base w n m d hd
    rw [extendCache_cacheUpTo]
    exact ⟨cacheUpTo_getElem? base w hd, cacheUpTo_length base w (n + m)⟩
  · intro s w d hd
    exact ⟨build_eq_raisedTo s w d, gendeg_build_of_le_degMax hd, fun w' => gendeg_build_other⟩

/-- Settles O6: the rules of GENBLD, and those of `build`. -/
theorem genbldRaisesTheCounter : Obligations.GenbldRaisesTheCounter := by
  unfold Obligations.GenbldRaisesTheCounter
  refine ⟨fun d hd => ?_, fun s d h => withField_none_latched h _, fun s w d => exec_genbld_range,
    fun s w d h hd => ?_, fun s w d h hd hheld => ?_⟩
  · exact decode_encode (i := .genbld d) ((fitsField_iff d).mpr hd)
  · rw [← build_eq_raisedTo]
    exact ⟨exec_genbld h hd, gendeg_build_of_le_degMax hd⟩
  · rw [exec_genbld h hd, build_of_le hheld]

/-- Settles O7: the rules of GENRD; the generator of degree d has the coefficients 0..d, the first of them 1. -/
theorem genrdReadsTheGenerator : Obligations.GenrdReadsTheGenerator := by
  unfold Obligations.GenrdReadsTheGenerator
  refine ⟨fun d j hd hj => ?_, fun s d j h => withField_none_latched h _, fun s w d j => exec_genrd_range,
    fun s w d j h hd hj => ?_⟩
  · exact decode_encode (i := .genrd d j)
      (Bool.and_eq_true_iff.mpr ⟨(fitsField_iff d).mpr hd, (fitsField_iff j).mpr hj⟩)
  · have hlt : j < (genPoly s.genBase w d).length := by rw [genPoly_length]; exact Nat.lt_succ_of_le hj
    refine ⟨(genPoly s.genBase w d).getD j 0#12, ?_, ?_, ?_⟩
    · rw [List.getD_eq_getElem _ _ hlt, List.getElem?_eq_getElem hlt]
    · rw [← build_eq_raisedTo]
      exact exec_genrd h hd hj
    · rintro rfl
      exact genPoly_getD_zero s.genBase w d

end Sys2Proof.Machine
end

section
/-! SUPPORT. Which faults a command can end with, and what a step does to ERR (R102, R105). -/

namespace Sys2Proof.Machine

/-- Where an outcome reached from s is a next state, it is s with a fault other than ERR_DEGENERATE latched, or its latch is that
of s (R102, R105). -/
def FaultsOrKeepsLatch (s : State) (o : Outcome) : Prop :=
  ∀ t, o = .next t → (∃ c, c ≠ FaultCode.degenerate ∧ t = raiseFault s c) ∨ (t.fault = s.fault ∧ t.err = s.err)

theorem faultsOrKeepsLatch_faulted (s : State) {c : FaultCode} (hc : c ≠ .degenerate) :
    FaultsOrKeepsLatch s (faulted s c) := fun _ ht => by
  cases ht
  exact .inl ⟨c, hc, rfl⟩

theorem faultsOrKeepsLatch_next {s t : State} (hfault : t.fault = s.fault) (herr : t.err = s.err) :
    FaultsOrKeepsLatch s (.next t) := fun _ ht => by
  cases ht
  exact .inr ⟨hfault, herr⟩

/-- A check before an operation: it faults, or the operation goes on. -/
theorem faultsOrKeepsLatch_check {s : State} {c : FaultCode} {o : Outcome} (hc : c ≠ .degenerate) {bad : Prop}
    [Decidable bad] (ho : FaultsOrKeepsLatch s o) : FaultsOrKeepsLatch s (if bad then faulted s c else o) := by
  split
  · exact faultsOrKeepsLatch_faulted s hc
  · exact ho

theorem faultsOrKeepsLatch_withField {s : State} {k : WordSize → Outcome} (hk : ∀ w, FaultsOrKeepsLatch s (k w)) :
    FaultsOrKeepsLatch s (withField s k) := by
  cases hs : s.wsel with
  | none => rw [withField_none hs]; exact faultsOrKeepsLatch_faulted s (by decide)
  | some w => rw [withField_some hs]; exact hk w

/-- No generator is the zero polynomial: each is monic (R68 (a), R78). -/
theorem genPoly_ne_zero_poly (base : GenBase) (w : WordSize) (d : Nat) : genPoly base w d ≠ [0#12] := by
  obtain ⟨p, hgen, -⟩ := genPoly_monic base w d
  rw [hgen]
  exact cons_ne_zero_poly p (by decide)

/-- The check words always exist, also of data that is not over the field (R78). -/
theorem rsCheck_ne_none (base : GenBase) (w : WordSize) (data : Poly) (e : Nat) : rsCheck base w data e ≠ none := by
  rw [rsCheck, polyRem, if_neg (genPoly_ne_zero_poly base w e), Option.map_some]
  exact Option.some_ne_none _

theorem faultsOrKeepsLatch_encodeBlock (w : WordSize) (k e : Nat) (s : State) :
    FaultsOrKeepsLatch s (encodeBlock w k e s) := by
  obtain ⟨-, hrange⟩ | ⟨-, ⟨hnone, -⟩ | ⟨c, -, hdone⟩⟩ := encodeBlock_cases w k e s
  · rw [hrange]; exact faultsOrKeepsLatch_faulted s (by decide)
  · exact absurd hnone (rsCheck_ne_none _ w _ e)
  · rw [hdone]; exact faultsOrKeepsLatch_next (by simp) (by simp)

/-- No command raises ERR_DEGENERATE, and one that raises no fault leaves the latch alone (R102, R105). -/
theorem faultsOrKeepsLatch_exec (i : Instr) (s : State) : FaultsOrKeepsLatch s (exec i s) := by
  cases i with
  | nop => exact faultsOrKeepsLatch_next rfl rfl
  | setw n =>
    change FaultsOrKeepsLatch s (execSetw n s)
    unfold execSetw
    split
    · exact faultsOrKeepsLatch_faulted s (by decide)
    · exact faultsOrKeepsLatch_next rfl rfl
  | gfexp i =>
    exact faultsOrKeepsLatch_withField fun w =>
      faultsOrKeepsLatch_check (by decide) (faultsOrKeepsLatch_next rfl rfl)
  | gflog x =>
    exact faultsOrKeepsLatch_withField fun w =>
      faultsOrKeepsLatch_check (by decide) (faultsOrKeepsLatch_next rfl rfl)
  | gfmul a b =>
    exact faultsOrKeepsLatch_withField fun w =>
      faultsOrKeepsLatch_check (by decide) (faultsOrKeepsLatch_next rfl rfl)
  | genbld d =>
    exact faultsOrKeepsLatch_withField fun w =>
      faultsOrKeepsLatch_check (by decide) (faultsOrKeepsLatch_next (build_fault s w d) (build_err s w d))
  | genrd d j =>
    exact faultsOrKeepsLatch_withField fun w =>
      faultsOrKeepsLatch_check (by decide) <|
        faultsOrKeepsLatch_check (by decide) (faultsOrKeepsLatch_next (build_fault s w d) (build_err s w d))
  | rsenc k e =>
    exact faultsOrKeepsLatch_withField fun w =>
      faultsOrKeepsLatch_check (by decide) (faultsOrKeepsLatch_encodeBlock w k e s)
  | rsencp n e =>
    exact faultsOrKeepsLatch_withField fun w =>
      faultsOrKeepsLatch_check (by decide) (faultsOrKeepsLatch_encodeBlock w (n - e) e s)

theorem faultsOrKeepsLatch_commandWrite (v : Word) (s : State) : FaultsOrKeepsLatch s (commandWrite v s) := by
  obtain ⟨-, hignored⟩ | ⟨-, -, hillegal⟩ | ⟨-, i, -, hexec⟩ := commandWrite_cases v s
  · rw [hignored]; exact faultsOrKeepsLatch_next rfl rfl
  · rw [hillegal]; exact faultsOrKeepsLatch_faulted s (by decide)
  · rw [hexec]; exact faultsOrKeepsLatch_exec i s

/-- Code 3 is that of ERR_DEGENERATE alone (R101). -/
theorem errCode_ne_three {c : FaultCode} (hc : c ≠ .degenerate) : errCode c ≠ 3#4 := by
  cases c with
  | degenerate => exact absurd rfl hc
  | _ => decide

theorem FaultsOrKeepsLatch.err_ne_three {s t : State} {o : Outcome} (ho : FaultsOrKeepsLatch s o) (hs : s.err ≠ 3#4)
    (ht : o = .next t) : t.err ≠ 3#4 := by
  obtain ⟨c, hc, rfl⟩ | ⟨-, herr⟩ := ho t ht
  · exact errCode_ne_three hc
  · rw [herr]; exact hs

theorem writeLocation_err_ne_three {s t : State} {v : Word} {l : Location} (hs : s.err ≠ 3#4)
    (ht : writeLocation v s l = .next t) : t.err ≠ 3#4 := by
  cases l with
  | cmd => exact (faultsOrKeepsLatch_commandWrite v s).err_ne_three hs ht
  | ctrl =>
    cases ht
    unfold controlWrite
    split
    · rw [softReset_err]; decide
    · exact hs
  | _ => cases ht; exact hs

/-- No step latches ERR = 3: only a command raises a fault, a reset clears ERR, and any other event leaves it (R105). -/
theorem step_err_ne_three {s t : State} (hs : s.err ≠ 3#4) (ht : step s = .next t) : t.err ≠ 3#4 := by
  cases hp : s.pending with
  | nil => rw [step_idle hp] at ht; cases ht; exact hs
  | cons e rest =>
    have hstore : step { s with pending := e :: rest } = .next t := by rw [← hp]; exact ht
    cases e with
    | assertReset => cases hstore; rw [hardReset_err]; decide
    | releaseReset => cases hstore; exact hs
    | read off width =>
      obtain ⟨l, -, rfl⟩ := step_read_inv hstore
      exact hs
    | write off width v =>
      obtain ⟨l, -, hwrite⟩ := step_write_inv hstore
      exact writeLocation_err_ne_three (s := answered s rest .written) hs hwrite

end Sys2Proof.Machine
end

section
/-! PROOFS. ERR = 3 cannot occur (R78, R105). -/

namespace Sys2Proof.Machine

/-- Settles O19: a monic generator is not the zero polynomial, so an encode that passes its checks completes, and no other
operation raises ERR_DEGENERATE. -/
theorem degenerateNeverOccurs : Obligations.DegenerateNeverOccurs := by
  unfold Obligations.DegenerateNeverOccurs
  exact ⟨rsCheck_ne_none, fun s t => step_err_ne_three⟩

end Sys2Proof.Machine
end

section
/-! SUPPORT. The position-by-position sum of two sequences, and sums of field elements: what the division at fixed width needs
(R57, R64). -/

namespace Sys2Proof.Machine

@[simp] theorem addInto_nil_right (p : Poly) : addInto p [] = p := by cases p <;> rfl

theorem addInto_comm (p q : Poly) : addInto p q = addInto q p := by
  induction p generalizing q with
  | nil => rw [addInto_nil_right, addInto]
  | cons x p ih =>
    cases q with
    | nil => rfl
    | cons y q => rw [addInto, addInto, ih, gfAdd, gfAdd, BitVec.xor_comm]

theorem addInto_left_comm (p q r : Poly) : addInto p (addInto q r) = addInto q (addInto p r) := by
  induction p generalizing q r with
  | nil => rfl
  | cons x p ih =>
    cases q with
    | nil => rfl
    | cons y q =>
      cases r with
      | nil => exact addInto_comm (x :: p) (y :: q)
      | cons z r =>
        simp only [addInto, gfAdd, ih q r]
        rw [← BitVec.xor_assoc, BitVec.xor_comm x y, BitVec.xor_assoc]

@[simp] theorem addInto_self (p : Poly) : addInto p p = zeros p.length := by
  induction p with
  | nil => rfl
  | cons c p ih => rw [addInto, ih, gfAdd, BitVec.xor_self, List.length_cons, zeros_succ]

/-- Zeros that do not reach beyond a sequence change nothing. -/
theorem addInto_zeros {n : Nat} {p : Poly} (hn : n ≤ p.length) : addInto (zeros n) p = p := by
  induction n generalizing p with
  | zero => rfl
  | succ n ih =>
    cases p with
    | nil => cases hn
    | cons c p => rw [zeros_succ, addInto, ih (Nat.le_of_succ_le_succ hn), gfAdd, BitVec.zero_xor]

/-- Words appended to a sequence are words added to the zeros appended to it. -/
theorem addInto_zeros_append (p c : Poly) : addInto (zeros p.length ++ c) (p ++ zeros c.length) = p ++ c := by
  induction p with
  | nil => simp [addInto_comm c, addInto_zeros]
  | cons x p ih => simp [zeros_succ, addInto, ih, gfAdd]

@[simp] theorem zipWith_zeros (r : Poly) : List.zipWith gfAdd r (zeros r.length) = r := by
  induction r with
  | nil => rfl
  | cons c r ih => rw [List.length_cons, zeros_succ, List.zipWith_cons_cons, ih, gfAdd, BitVec.xor_zero]

/-- Added with zeros at its end to a sequence of that length, a sequence goes into the first coefficients (R64). -/
theorem zipWith_append_zeros {r ts : Poly} {n : Nat} (h : r.length = ts.length + n) :
    List.zipWith gfAdd r (ts ++ zeros n) = addInto ts r := by
  induction ts generalizing r with
  | nil =>
    obtain rfl : r.length = n := by simpa using h
    exact zipWith_zeros r
  | cons t ts ih =>
    cases r with
    | nil => rw [List.length_nil, List.length_cons] at h; omega
    | cons c r =>
      have hr : r.length = ts.length + n := by rw [List.length_cons, List.length_cons] at h; omega
      rw [List.cons_append, List.zipWith_cons_cons, ih hr, addInto, gfAdd, gfAdd, BitVec.xor_comm]

theorem polyAdd_of_length_eq {p q : Poly} (h : p.length = q.length) :
    polyAdd p q = polyNorm (List.zipWith gfAdd p q) := by
  simp [polyAdd, padLeft, h]

theorem gfAdd_lt {w : WordSize} {a b : Elem} (ha : a.toNat < 2 ^ w.bits) (hb : b.toNat < 2 ^ w.bits) :
    (gfAdd a b).toNat < 2 ^ w.bits := by
  rw [gfAdd, BitVec.toNat_xor]
  exact Nat.xor_lt_two_pow ha hb

theorem allInField_map_gfMul (w : WordSize) (c : Elem) (p : Poly) : allInField w (p.map (gfMul w c)) :=
  List.forall_mem_map.mpr fun x _ => gfMul_lt w c x

theorem allInField_append {w : WordSize} {p q : Poly} (hp : allInField w p) (hq : allInField w q) :
    allInField w (p ++ q) :=
  List.forall_mem_append.mpr ⟨hp, hq⟩

theorem allInField_zeros (w : WordSize) (n : Nat) : allInField w (zeros n) := fun c hc => by
  rw [List.eq_of_mem_replicate hc]
  exact size_pos w

theorem allInField_addInto {w : WordSize} {p q : Poly} (hp : allInField w p) (hq : allInField w q) :
    allInField w (addInto p q) := by
  induction p generalizing q with
  | nil => exact hq
  | cons x p ih =>
    cases q with
    | nil => exact hp
    | cons y q =>
      obtain ⟨hx, hp⟩ := List.forall_mem_cons.mp hp
      obtain ⟨hy, hq⟩ := List.forall_mem_cons.mp hq
      exact List.forall_mem_cons.mpr ⟨gfAdd_lt hx hy, ih hp hq⟩

end Sys2Proof.Machine
end

section
/-! SUPPORT. The long division of R71 by a monic divisor, done at fixed width: a pass takes away the first coefficient, whether
it is 0 or not, and adds its multiple of the divisor's other coefficients gs into those that follow. After as many passes as
there are coefficients before the last len(gs), these hold the remainder, with the leading zeros that `polyNorm` removes. -/

namespace Sys2Proof.Machine

/-- One pass at fixed width, for the divisor 1 :: gs. -/
def cancelHead (w : WordSize) (gs p : Poly) : Poly := addInto (gs.map (gfMul w (p.headD 0#12))) p.tail

/-- The words that n passes leave. -/
def fixedWidthRem (w : WordSize) (gs : Poly) (n : Nat) (p : Poly) : Poly := (cancelHead w gs)^[n] p

@[simp] theorem fixedWidthRem_zero (w : WordSize) (gs p : Poly) : fixedWidthRem w gs 0 p = p := rfl

theorem fixedWidthRem_succ (w : WordSize) (gs : Poly) (n : Nat) (p : Poly) :
    fixedWidthRem w gs (n + 1) p = fixedWidthRem w gs n (cancelHead w gs p) := rfl

theorem map_gfMul_zero (w : WordSize) (p : Poly) : p.map (gfMul w 0#12) = zeros p.length := by
  simp [zeros, List.map_eq_replicate_iff]

/-- A pass on a leading zero only drops it. -/
theorem cancelHead_zero_cons {w : WordSize} {gs p : Poly} (h : gs.length ≤ p.length) :
    cancelHead w gs (0#12 :: p) = p := by
  rw [cancelHead, List.headD_cons, List.tail_cons, map_gfMul_zero, addInto_zeros h]

theorem cancelHead_length {w : WordSize} {gs p : Poly} {n : Nat} (h : p.length = n + 1 + gs.length) :
    (cancelHead w gs p).length = n + gs.length := by
  simp only [cancelHead, addInto_length, List.length_map, List.length_tail]
  omega

theorem fixedWidthRem_length {w : WordSize} {gs p : Poly} {n : Nat} (h : p.length = n + gs.length) :
    (fixedWidthRem w gs n p).length = gs.length := by
  induction n generalizing p with
  | zero => rw [fixedWidthRem_zero, h, Nat.zero_add]
  | succ n ih => exact ih (cancelHead_length h)

theorem cancelHead_allInField {w : WordSize} {p : Poly} (gs : Poly) (hp : allInField w p) :
    allInField w (cancelHead w gs p) :=
  allInField_addInto (allInField_map_gfMul w _ gs) fun c hc => hp c (List.mem_of_mem_tail hc)

theorem fixedWidthRem_allInField {w : WordSize} {p : Poly} (gs : Poly) (n : Nat) (hp : allInField w p) :
    allInField w (fixedWidthRem w gs n p) := by
  induction n generalizing p with
  | zero => exact hp
  | succ n ih => exact ih (cancelHead_allInField gs hp)

/-- A pass leaves words alone that are added behind the first coefficient. -/
theorem cancelHead_addInto (w : WordSize) (gs q : Poly) {p : Poly} (hp : p ≠ []) :
    cancelHead w gs (addInto (0#12 :: q) p) = addInto q (cancelHead w gs p) := by
  obtain ⟨x, p, rfl⟩ := List.exists_cons_of_ne_nil hp
  rw [addInto, gfAdd, BitVec.zero_xor]
  exact addInto_left_comm _ q p

/-- Words added behind the n first coefficients are added to what n passes leave: the division of R71 sees them last. -/
theorem fixedWidthRem_addInto (w : WordSize) (gs q : Poly) {n : Nat} {p : Poly} (hn : n ≤ p.length) :
    fixedWidthRem w gs n (addInto (zeros n ++ q) p) = addInto q (fixedWidthRem w gs n p) := by
  induction n generalizing p with
  | zero => rfl
  | succ n ih =>
    have hp : p ≠ [] := List.ne_nil_of_length_pos (Nat.zero_lt_of_lt hn)
    have hlen : n ≤ (cancelHead w gs p).length := by
      simp only [cancelHead, addInto_length, List.length_tail]
      omega
    rw [fixedWidthRem_succ, zeros_succ, List.cons_append, cancelHead_addInto w gs _ hp, ih hlen, fixedWidthRem_succ]

/-- A pass of the long division is a pass at fixed width, normalised: the divisor is monic, so the first coefficient cancels. -/
theorem polyAdd_polyScaleShift {w : WordSize} {gs p : Poly} {x : Elem} {n : Nat} (hx : x ≠ 0#12)
    (hfield : x.toNat < 2 ^ w.bits) (hlen : p.length = n + gs.length) :
    polyAdd (x :: p) (polyScaleShift w (1#12 :: gs) x n) = polyNorm (cancelHead w gs (x :: p)) := by
  have hone : gfMul w x 1#12 = x := by rw [gfMul_comm, gfMul_one_left (Nat.le_pred_of_lt hfield)]
  have hcancel : List.zipWith gfAdd p (gs.map (gfMul w x) ++ zeros n) = cancelHead w gs (x :: p) :=
    zipWith_append_zeros (by rw [List.length_map, hlen, Nat.add_comm])
  rw [polyScaleShift, if_neg hx, List.map_cons, hone, polyAdd_of_length_eq (by simp [hlen, Nat.add_comm]),
    List.cons_append, List.zipWith_cons_cons, hcancel, gfAdd, BitVec.xor_self, polyNorm_zero_cons]

theorem divisionPasses_of_length_lt {w : WordSize} {g r : Poly} (h : r.length < g.length) (passes : Nat) :
    divisionPasses w g passes r = r := by
  cases passes with
  | zero => rfl
  | succ passes => exact if_pos (.inr h)

/-- Enough passes of the long division leave what the division at fixed width leaves, normalised. -/
theorem divisionPasses_polyNorm {w : WordSize} {gs p : Poly} {n passes : Nat} (hgs : gs ≠ []) (hp : allInField w p)
    (hlen : p.length = n + gs.length) (hpasses : (polyNorm p).length ≤ passes + gs.length) :
    divisionPasses w (1#12 :: gs) passes (polyNorm p) = polyNorm (fixedWidthRem w gs n p) := by
  have hpos : 0 < gs.length := List.length_pos_iff.mpr hgs
  induction n generalizing p passes with
  | zero =>
    have hne : p ≠ [] := List.ne_nil_of_length_pos (by omega)
    have hle := polyNorm_length_le hne
    refine divisionPasses_of_length_lt ?_ passes
    rw [List.length_cons]
    omega
  | succ n ih =>
    obtain ⟨x, p, rfl⟩ := List.exists_cons_of_length_pos (l := p) (by omega)
    have hnext := cancelHead_length (w := w) hlen
    have hrest : p.length = n + gs.length := by rw [List.length_cons] at hlen; omega
    rw [fixedWidthRem_succ]
    by_cases hx : x = 0#12
    · subst hx
      rw [polyNorm_zero_cons] at hpasses ⊢
      rw [cancelHead_zero_cons (by omega)]
      exact ih (List.forall_mem_cons.mp hp).2 hrest hpasses
    · rw [polyNorm_of_head p hx, hlen] at hpasses
      obtain ⟨m, rfl⟩ : ∃ m, passes = m + 1 := ⟨passes - 1, by omega⟩
      have hle := polyNorm_length_le (List.ne_nil_of_length_pos (by omega) : cancelHead w gs (x :: p) ≠ [])
      rw [polyNorm_of_head p hx, divisionPasses,
        if_neg (not_or.mpr ⟨cons_ne_zero_poly p hx, by simp only [List.length_cons]; omega⟩), List.headD_cons,
        show (x :: p).length - (1#12 :: gs).length = n by simp [hrest],
        polyAdd_polyScaleShift hx (List.forall_mem_cons.mp hp).1 hrest]
      exact ih (cancelHead_allInField gs hp) hnext (by omega)

/-- poly_rem of a normalised polynomial by a monic divisor of positive degree (R71). -/
theorem polyRem_polyNorm {w : WordSize} {gs p : Poly} {n : Nat} (hgs : gs ≠ []) (hp : allInField w p)
    (hlen : p.length = n + gs.length) :
    polyRem w (polyNorm p) (1#12 :: gs) = some (polyNorm (fixedWidthRem w gs n p)) := by
  rw [polyRem, if_neg (cons_ne_zero_poly gs (by decide)),
    divisionPasses_polyNorm hgs hp hlen (by rw [List.length_cons]; omega)]

end Sys2Proof.Machine
end

section
/-! SUPPORT. The check words as the remainder at fixed width (R72). -/

namespace Sys2Proof.Machine

/-- Multiplication by x^e appends e zeros, also before the data's leading zeros are removed. -/
theorem timesXPow_polyNorm (e : Nat) (data : Poly) : timesXPow e (polyNorm data) = polyNorm (data ++ zeros e) := by
  induction data with
  | nil => exact (polyNorm_zeros e).symm
  | cons c data ih =>
    by_cases hc : c = 0#12
    · rw [hc, List.cons_append, polyNorm_zero_cons, polyNorm_zero_cons, ih]
    · rw [List.cons_append, polyNorm_of_head _ hc, polyNorm_of_head _ hc, timesXPow,
        if_neg (cons_ne_zero_poly data hc), List.cons_append]

/-- Padding brings back the leading zeros that normalisation removed. -/
theorem padRemainder_polyNorm {e : Nat} {p : Poly} (he : 1 ≤ e) (hp : p.length = e) :
    padRemainder e (polyNorm p) = p := by
  obtain ⟨m, hm⟩ := exists_eq_zeros_append_polyNorm (List.ne_nil_of_length_pos (hp ▸ he))
  have hlen : e = m + (polyNorm p).length := by simpa [hp] using congrArg List.length hm
  by_cases hzero : polyNorm p = [0#12]
  · rw [hzero] at hm hlen
    rw [padRemainder, if_pos hzero, hlen, hm]
    exact (List.append_nil _).trans List.replicate_succ'
  · rw [padRemainder, if_neg hzero, hlen, Nat.add_sub_cancel, ← hm]

theorem genPoly_eq_cons_tail (base : GenBase) (w : WordSize) (e : Nat) :
    genPoly base w e = 1#12 :: (genPoly base w e).tail := by
  obtain ⟨gs, hgen, -⟩ := genPoly_monic base w e
  rw [hgen, List.tail_cons]

theorem genPoly_tail_length (base : GenBase) (w : WordSize) (e : Nat) : (genPoly base w e).tail.length = e := by
  rw [List.length_tail, genPoly_length, Nat.add_sub_cancel]

/-- The words that the division of data·x^e by the generator leaves at fixed width. -/
def checkWords (base : GenBase) (w : WordSize) (data : Poly) (e : Nat) : Poly :=
  fixedWidthRem w (genPoly base w e).tail data.length (data ++ zeros e)

@[simp] theorem checkWords_length (base : GenBase) (w : WordSize) (data : Poly) (e : Nat) :
    (checkWords base w data e).length = e := by
  have htail := genPoly_tail_length base w e
  rw [checkWords, fixedWidthRem_length (by rw [htail, List.length_append, zeros_length]), htail]

theorem checkWords_allInField {w : WordSize} {data : Poly} (base : GenBase) (e : Nat) (hdata : allInField w data) :
    allInField w (checkWords base w data e) :=
  fixedWidthRem_allInField _ _ (allInField_append hdata (allInField_zeros w e))

/-- poly_rem of n + e words, normalised, by the generator of degree e (R71). -/
theorem polyRem_genPoly {w : WordSize} {p : Poly} {n e : Nat} (base : GenBase) (he : 1 ≤ e) (hp : allInField w p)
    (hlen : p.length = n + e) :
    polyRem w (polyNorm p) (genPoly base w e) =
      some (polyNorm (fixedWidthRem w (genPoly base w e).tail n p)) := by
  have htail := genPoly_tail_length base w e
  rw [genPoly_eq_cons_tail]
  exact polyRem_polyNorm (List.ne_nil_of_length_pos (by omega)) hp (by rw [htail, hlen])

/-- rs_check gives the words left at fixed width (R72). -/
theorem rsCheck_eq_checkWords {w : WordSize} {data : Poly} {e : Nat} (base : GenBase) (he : 1 ≤ e)
    (hdata : allInField w data) : rsCheck base w data e = some (checkWords base w data e) := by
  rw [rsCheck, timesXPow_polyNorm,
    polyRem_genPoly base he (allInField_append hdata (allInField_zeros w e)) (by rw [List.length_append, zeros_length]),
    Option.map_some]
  exact congrArg some (padRemainder_polyNorm he (checkWords_length base w data e))

/-- With words c in place of the e zeros, the same division leaves c added to the check words. -/
theorem fixedWidthRem_append (base : GenBase) (w : WordSize) (data c : Poly) :
    fixedWidthRem w (genPoly base w c.length).tail data.length (data ++ c) =
      addInto c (checkWords base w data c.length) := by
  rw [checkWords, ← fixedWidthRem_addInto w _ c (by simp), addInto_zeros_append]

/-- The codeword's division leaves the check words added to themselves (R73). -/
theorem fixedWidthRem_codeword (base : GenBase) (w : WordSize) (data : Poly) (e : Nat) :
    fixedWidthRem w (genPoly base w e).tail data.length (data ++ checkWords base w data e) = zeros e := by
  have h := fixedWidthRem_append base w data (checkWords base w data e)
  rwa [checkWords_length, addInto_self, checkWords_length] at h

end Sys2Proof.Machine
end

section
/-! PROOFS. The codeword is a multiple of the generator (R73). -/

namespace Sys2Proof.Machine

/-- Settles O54: the check words stand in the codeword where the dividend of rs_check has zeros, so the same division leaves the
check words added to themselves. -/
theorem codewordHasZeroRemainder : Obligations.CodewordHasZeroRemainder := by
  unfold Obligations.CodewordHasZeroRemainder
  intro base w data e _ hdata he _
  refine ⟨checkWords base w data e, rsCheck_eq_checkWords base he hdata, ?_⟩
  have hcodeword := allInField_append hdata (checkWords_allInField base e hdata)
  rw [polyRem_genPoly base he hcodeword (by rw [List.length_append, checkWords_length]), fixedWidthRem_codeword,
    polyNorm_zeros]

end Sys2Proof.Machine
end

section
/-! SUPPORT. The commands that need a selected field: all but NOP and SETW (R81, R104). -/

namespace Sys2Proof.Machine

/-- With no field selected a command other than NOP and SETW faults (R104). -/
theorem exec_of_wsel_none {s : State} (h : s.wsel = none) {i : Instr} (hnop : i ≠ .nop) (hsetw : ∀ n, i ≠ .setw n) :
    exec i s = .next (latched s 1#4) := by
  cases i with
  | nop => exact absurd rfl hnop
  | setw n => exact absurd rfl (hsetw n)
  | _ => exact withField_none_latched h _

end Sys2Proof.Machine
end

section
/-! PROOFS. NOP (R81). -/

namespace Sys2Proof.Machine

/-- Settles O1: with OP 0x00 only the zero word is legal, and no field is selected after reset, so there every command but NOP
and SETW ends with FAULT set. -/
theorem nopDoesNothing : Obligations.NopDoesNothing := by
  unfold Obligations.NopDoesNothing
  refine ⟨rfl, fun s => rfl, fun s v hfault hop hab => ?_, fun base i t ht hfault => ?_⟩
  · exact commandWrite_illegal hfault ((decodeFields_eq_none_iff _ _ _).mpr (.inr (.inl ⟨hop, hab⟩)))
  · by_contra hneither
    obtain ⟨hnop, hsetw⟩ := not_or.mp hneither
    rw [exec_of_wsel_none rfl hnop (not_exists.mp hsetw)] at ht
    cases ht
    cases hfault

end Sys2Proof.Machine
end

section
/-! SUPPORT. What RSENC and RSENCP do before the check words: a rule per outcome of their checks (R75, R76, R103, R106). -/

namespace Sys2Proof.Machine

/-- Checks 3, 4 and 5 of R75: too many check words, too many words for BUF, or a data word that is no element of the field. -/
def EncodeOutOfRange (s : State) (w : WordSize) (k e : Nat) : Prop :=
  w.degMax < e ∨ 4096 < k + e ∨ ∃ i < k, w.size ≤ (bufRead s i).toNat

/-- R75 check 5 as R109 writes it: some data word is no element of the field. -/
theorem any_memRead_iff (s : State) (w : WordSize) (k : Nat) :
    (memRead s 0 k).any (fun v => decide (v.toNat ≥ 2 ^ w.bits)) = true ↔
      ∃ i < k, w.size ≤ (bufRead s i).toNat := by
  simp [memRead, WordSize.size]

/-- An encode that fails a range check faults (R106). -/
theorem encodeBlock_range {s : State} {w : WordSize} {k e : Nat} (hbad : EncodeOutOfRange s w k e) :
    encodeBlock w k e s = faulted s .range := by
  obtain ⟨-, hrange⟩ | ⟨⟨he, hk, hdata⟩, -⟩ := encodeBlock_cases w k e s
  · exact hrange
  · obtain he' | hk' | ⟨i, hi, hge⟩ := hbad
    · exact absurd he (Nat.not_le.mpr he')
    · exact absurd hk (Nat.not_le.mpr hk')
    · exact absurd (hdata i hi) (Nat.not_lt.mpr hge)

/-- An encode that passes the range checks completes, and leaves the latch alone. -/
theorem encodeBlock_completes {s : State} {w : WordSize} {k e : Nat} (hok : ¬ EncodeOutOfRange s w k e) :
    ∃ t, encodeBlock w k e s = .next t ∧ t.fault = s.fault ∧ t.err = s.err := by
  obtain ⟨hbad, -⟩ | ⟨-, ⟨hnone, -⟩ | ⟨c, -, hdone⟩⟩ := encodeBlock_cases w k e s
  · exact absurd hbad hok
  · exact absurd hnone (rsCheck_ne_none _ w _ e)
  · exact ⟨_, hdone, by simp, by simp⟩

/-- RSENC without data or check words faults (R103). -/
theorem exec_rsenc_invalidInput {s : State} {w : WordSize} {k e : Nat} (h : s.wsel = some w) (hbad : e = 0 ∨ k = 0) :
    exec (.rsenc k e) s = .next (latched s 2#4) :=
  (withField_some h _).trans (if_pos hbad)

/-- RSENCP without data or check words faults (R103). -/
theorem exec_rsencp_invalidInput {s : State} {w : WordSize} {n e : Nat} (h : s.wsel = some w) (hbad : e = 0 ∨ n ≤ e) :
    exec (.rsencp n e) s = .next (latched s 2#4) :=
  (withField_some h _).trans (if_pos hbad)

/-- RSENC, its input test passed (R75). -/
theorem exec_rsenc {s : State} {w : WordSize} {k e : Nat} (h : s.wsel = some w) (he : e ≠ 0) (hk : k ≠ 0) :
    exec (.rsenc k e) s = encodeBlock w k e s :=
  (withField_some h _).trans (if_neg (not_or.mpr ⟨he, hk⟩))

/-- RSENCP, its input test passed (R76). -/
theorem exec_rsencp {s : State} {w : WordSize} {n e : Nat} (h : s.wsel = some w) (he : e ≠ 0) (hn : e < n) :
    exec (.rsencp n e) s = encodeBlock w (n - e) e s :=
  (withField_some h _).trans (if_neg (not_or.mpr ⟨he, Nat.not_le.mpr hn⟩))

end Sys2Proof.Machine
end

section
/-! SUPPORT. The order of the checks (R109): each command, check by check, against the table `dueFault`. -/

namespace Sys2Proof.Machine

/-- The outcome of a command that is due a fault, or none: the fault is latched and nothing else changes, or the command
completes with the latch as it was. -/
def HasDueOutcome (s : State) (o : Outcome) : Option FaultCode → Prop
  | some code => o = faulted s code
  | none => ∃ t, o = .next t ∧ t.fault = s.fault ∧ t.err = s.err

theorem hasDueOutcome_next {s t : State} (hfault : t.fault = s.fault) (herr : t.err = s.err) :
    HasDueOutcome s (.next t) none :=
  ⟨t, rfl, hfault, herr⟩

/-- A check that the command and the table both make: the code is that of this check, or of one after it. -/
theorem hasDueOutcome_check {s : State} {o : Outcome} {due : Option FaultCode} {c : FaultCode} {bad bad' : Prop}
    [Decidable bad] [Decidable bad'] (hiff : bad ↔ bad') (hrest : ¬ bad → HasDueOutcome s o due) :
    HasDueOutcome s (if bad then faulted s c else o) (if bad' then some c else due) := by
  by_cases hbad : bad
  · rw [if_pos hbad, if_pos (hiff.mp hbad)]
    exact rfl
  · rw [if_neg hbad, if_neg (mt hiff.mpr hbad)]
    exact hrest hbad

/-- The range checks of an encode, which the table makes as one (R109 steps 4 and 5). -/
theorem hasDueOutcome_encodeBlock {s : State} {w : WordSize} {k e : Nat} {bad : Prop} [Decidable bad]
    (hiff : bad ↔ EncodeOutOfRange s w k e) :
    HasDueOutcome s (encodeBlock w k e s) (if bad then some .range else none) := by
  by_cases hbad : bad
  · rw [if_pos hbad]
    exact encodeBlock_range (hiff.mp hbad)
  · rw [if_neg hbad]
    exact encodeBlock_completes (mt hiff.mpr hbad)

/-- The selected field comes before every other check (R109 step 2). -/
theorem hasDueOutcome_withField {s : State} {k : WordSize → Outcome} {due : Option FaultCode}
    (hnone : s.wsel = none → due = some .wordsize) (hsome : ∀ w, s.wsel = some w → HasDueOutcome s (k w) due) :
    HasDueOutcome s (withField s k) due := by
  cases hs : s.wsel with
  | none =>
    rw [hnone hs]
    exact withField_none hs k
  | some w =>
    rw [withField_some hs]
    exact hsome w hs

/-- With no field selected every command but NOP and SETW is due ERR_WORDSIZE. -/
theorem dueFault_of_wsel_none {s : State} {i : Instr} (hnop : i ≠ .nop) (hsetw : ∀ n, i ≠ .setw n)
    (h : s.wsel = none) : dueFault s i = some .wordsize := by
  cases i with
  | nop => exact absurd rfl hnop
  | setw n => exact absurd rfl (hsetw n)
  | _ => simp only [dueFault, h]

/-- The numbers SETW accepts are those that name a word size (R59). -/
theorem hasDueOutcome_setw (n : Nat) (s : State) : HasDueOutcome s (exec (.setw n) s) (dueFault s (.setw n)) := by
  by_cases hn : n = 4 ∨ n = 6 ∨ n = 8 ∨ n = 10 ∨ n = 12
  · rw [dueFault, if_pos hn]
    obtain ⟨w, rfl⟩ : ∃ w : WordSize, n = w.bits := by
      obtain rfl | rfl | rfl | rfl | rfl := hn
      exacts [⟨.w4, rfl⟩, ⟨.w6, rfl⟩, ⟨.w8, rfl⟩, ⟨.w10, rfl⟩, ⟨.w12, rfl⟩]
    rw [exec_setw_bits]
    exact hasDueOutcome_next rfl rfl
  · rw [dueFault, if_neg hn]
    simp only [not_or] at hn
    exact exec_setw_none s (wordSizeOf_none hn)

/-- Every command makes its checks in the order of the table (R109). -/
theorem hasDueOutcome_exec (i : Instr) (s : State) : HasDueOutcome s (exec i s) (dueFault s i) := by
  cases i
  case nop => exact hasDueOutcome_next rfl rfl
  case setw n => exact hasDueOutcome_setw n s
  all_goals
    refine hasDueOutcome_withField (dueFault_of_wsel_none nofun nofun) fun w hs => ?_
    simp only [dueFault, hs]
  case gfexp i => exact hasDueOutcome_check Iff.rfl fun _ => hasDueOutcome_next rfl rfl
  case gflog x =>
    exact hasDueOutcome_check (or_congr BitVec.toNat_inj.symm (not_inField_iff w x)) fun _ =>
      hasDueOutcome_next rfl rfl
  case gfmul a b =>
    exact hasDueOutcome_check (or_congr (not_inField_iff w a) (not_inField_iff w b)) fun _ =>
      hasDueOutcome_next rfl rfl
  case genbld d =>
    exact hasDueOutcome_check Iff.rfl fun _ => hasDueOutcome_next (build_fault s w d) (build_err s w d)
  case genrd d j =>
    -- The table makes the two range checks as one.
    rw [ite_or]
    exact hasDueOutcome_check Iff.rfl fun _ => hasDueOutcome_check Iff.rfl fun _ =>
      hasDueOutcome_next (build_fault s w d) (build_err s w d)
  case rsenc k e =>
    exact hasDueOutcome_check Iff.rfl fun _ => hasDueOutcome_encodeBlock
      (or_congr_right (or_congr_right (any_memRead_iff s w k)))
  case rsencp n e =>
    refine hasDueOutcome_check Iff.rfl fun hinput => hasDueOutcome_encodeBlock ?_
    rw [EncodeOutOfRange, Nat.sub_add_cancel (Nat.le_of_not_le fun hle => hinput (.inr hle))]
    exact or_congr_right (or_congr_right (any_memRead_iff s w (n - e)))

/-- A legal word written to CMD while not faulted runs its command (R23). -/
theorem commandWrite_legal {s : State} {v : Word} {i : Instr} (hf : s.fault = false) (hd : decode v = some i) :
    commandWrite v s = exec i s := by
  simp [commandWrite, hf, hd]

/-- While faulted a write to CMD is ignored (R108). -/
theorem commandWrite_ignored {s : State} (v : Word) (hf : s.fault = true) : commandWrite v s = .next s :=
  if_pos hf

end Sys2Proof.Machine
end

section
/-! SUPPORT. The faulted condition (R108): which accesses it concerns, and what leaves it. -/

namespace Sys2Proof.Machine

/-- The offset of CMD (R21). -/
theorem target_cmd : target 0x0004#32 32 = .ok .cmd := target_ok (by decide) (by decide)

/-- A write to a location other than CMD does with any value of FAULT the same to every other field. -/
theorem writeLocation_setFault {l : Location} (hcmd : l ≠ .cmd) (v : Word) (s : State) (f : Bool) :
    ∃ t u, writeLocation v s l = .next t ∧ writeLocation v { s with fault := f } l = .next u ∧
      t = { u with fault := t.fault } := by
  cases l with
  | cmd => exact absurd rfl hcmd
  | ctrl =>
    refine ⟨_, _, rfl, rfl, ?_⟩
    unfold controlWrite
    split <;> rfl
  | _ => exact ⟨_, _, rfl, rfl, rfl⟩

/-- What a location other than STATUS reads as does not depend on FAULT. -/
theorem readLocation_setFault {l : Location} (hstatus : l ≠ .status) (s : State) (f : Bool) :
    readLocation s l = readLocation { s with fault := f } l := by
  cases l with
  | status => exact absurd rfl hstatus
  | _ => rfl

/-- In a faulted state no write but that of a soft reset touches the latch. -/
theorem writeLocation_latch {s t : State} {v : Word} {l : Location} (hf : s.fault = true)
    (hctrl : l = .ctrl → v.getLsbD 0 = false) (ht : writeLocation v s l = .next t) :
    t.fault = true ∧ t.err = s.err := by
  cases l with
  | cmd =>
    rw [writeLocation, commandWrite_ignored v hf] at ht
    cases ht
    exact ⟨hf, rfl⟩
  | ctrl =>
    rw [writeLocation, controlWrite, hctrl rfl] at ht
    cases ht
    exact ⟨hf, rfl⟩
  | _ => cases ht; exact ⟨hf, rfl⟩

/-- An answered write to CTRL that is no reset event has bit 0 clear (R121). -/
theorem getLsbD_zero_of_target_ctrl {off : Word} {width : Nat} {v : Word}
    (hreset : isResetEvent (.write off width v) = false) (ht : target off width = .ok .ctrl) : v.getLsbD 0 = false := by
  obtain ⟨rfl, ha, hl⟩ := target_ok_inv ht
  obtain rfl : off = offsetOf .ctrl := BitVec.eq_of_toNat_eq (locate_eq_some ha hl)
  exact hreset

/-- No event but a reset leaves the faulted condition or changes ERR in it (R108). -/
theorem step_latch {s t : State} {rest : List BusEvent} {e : BusEvent} (hf : s.fault = true)
    (hreset : isResetEvent e = false) (ht : step { s with pending := e :: rest } = .next t) :
    t.fault = true ∧ t.err = s.err := by
  cases e with
  | assertReset => cases hreset
  | releaseReset => cases ht; exact ⟨hf, rfl⟩
  | read off width =>
    obtain ⟨l, -, rfl⟩ := step_read_inv ht
    exact ⟨hf, rfl⟩
  | write off width v =>
    obtain ⟨l, hl, hwrite⟩ := step_write_inv ht
    refine writeLocation_latch (s := answered s rest .written) hf (fun hctrl => ?_) hwrite
    exact getLsbD_zero_of_target_ctrl hreset (hctrl ▸ hl)

end Sys2Proof.Machine
end

section
/-! PROOFS. The faults: which are raised, in what order, and what the faulted condition stops (R102 to R104, R106, R108, R109).
In the statements 2^w, 2^w - 1 and 2^w - 2 stand written out for `WordSize.size`, `WordSize.order` and `WordSize.degMax`. -/

namespace Sys2Proof.Machine

/-- Settles O12: the rules of SETW and of a command with no field selected. -/
theorem wordsizeFaults : Obligations.WordsizeFaults := by
  unfold Obligations.WordsizeFaults
  refine ⟨fun s n h4 h6 h8 h10 h12 => exec_setw_none s (wordSizeOf_none ⟨h4, h6, h8, h10, h12⟩), fun s h => ?_⟩
  exact ⟨fun i => withField_none_latched h _, fun x => withField_none_latched h _,
    fun a b => withField_none_latched h _, fun d => withField_none_latched h _,
    fun d j => withField_none_latched h _, fun k e => withField_none_latched h _,
    fun n e => withField_none_latched h _⟩

/-- Settles O13: the input test of the two encode commands. -/
theorem invalidInputFaults : Obligations.InvalidInputFaults := by
  unfold Obligations.InvalidInputFaults
  exact ⟨fun s w k e => exec_rsenc_invalidInput, fun s w n e => exec_rsencp_invalidInput⟩

/-- Settles O14: the range rule of each command; RSENCP's block of n words is one of n - e data words and e check words. -/
theorem rangeFaults : Obligations.RangeFaults := by
  unfold Obligations.RangeFaults
  intro s w h
  refine ⟨fun i => exec_gfexp_range h, fun x => exec_gflog_range h, fun a b => exec_gfmul_range h,
    fun d => exec_genbld_range h, fun d j => exec_genrd_range h, fun k e he hk hbad => ?_, fun n e he hn hbad => ?_⟩
  · rw [exec_rsenc h he hk]
    exact encodeBlock_range hbad
  · rw [exec_rsencp h he hn]
    refine encodeBlock_range ?_
    rw [EncodeOutOfRange, Nat.sub_add_cancel (Nat.le_of_lt hn)]
    exact hbad

/-- Settles O16: a command latches a fault on the state before, or leaves FAULT as it was. -/
theorem faultsArePrecise : Obligations.FaultsArePrecise := by
  unfold Obligations.FaultsArePrecise
  refine ⟨fun s => ⟨rfl, rfl, rfl, rfl, rfl⟩, fun s t i hs ht hfault => ?_⟩
  obtain ⟨code, -, hraised⟩ | ⟨hkept, -⟩ := faultsOrKeepsLatch_exec i s t ht
  · exact ⟨code, hraised⟩
  · rw [hkept, hs] at hfault
    cases hfault

/-- Settles O17: a write to CMD tests FAULT and then the word, and the command makes the remaining checks in the table's
order. -/
theorem firstFailingStepIsLatched : Obligations.FirstFailingStepIsLatched := by
  unfold Obligations.FirstFailingStepIsLatched
  refine fun s v => ⟨commandWrite_ignored v, commandWrite_illegal, fun i hf hd => ?_⟩
  have hexec := hasDueOutcome_exec i s
  rw [← commandWrite_legal hf hd] at hexec
  constructor
  · intro code hdue
    rw [hdue] at hexec
    exact hexec
  · intro hdue
    rw [hdue] at hexec
    obtain ⟨t, ht, hfault, herr⟩ := hexec
    exact ⟨t, ht, hfault.trans hf, herr⟩

/-- Settles O18: only a write to CMD tests FAULT, and only the two resets write it in a faulted state. -/
theorem faultedBlockIgnoresCommands : Obligations.FaultedBlockIgnoresCommands := by
  unfold Obligations.FaultedBlockIgnoresCommands
  refine ⟨fun s rest v hr hf => ?_, fun s l v _ hcmd => ⟨?_, fun hstatus => readLocation_setFault hstatus s false⟩,
    fun s t rest e => step_latch⟩
  · rw [step_write rest v hr target_cmd]
    exact commandWrite_ignored (s := answered s rest .written) v hf
  · obtain ⟨t, u, ht, hu, heq⟩ := writeLocation_setFault hcmd v s false
    refine ⟨t, ht, u, hu, ?_⟩
    rw [heq]
    exact ⟨rfl, rfl, rfl, fun w => gendeg_congr w ⟨rfl, rfl, rfl, rfl, rfl⟩⟩

end Sys2Proof.Machine
end

section
/-! SUPPORT. The write to CTRL (R27, R121): its offset, its two cases, and the soft reset by the reset values. -/

namespace Sys2Proof.Machine

/-- The offset of CTRL (R21). -/
theorem target_ctrl : target 0x0014#32 32 = .ok .ctrl := target_ok (by decide) (by decide)

/-- A write to CTRL with SRST set is a soft reset (R121). -/
theorem controlWrite_set {v : Word} (s : State) (hv : v.getLsbD 0 = true) : controlWrite v s = softReset s :=
  if_pos hv

/-- A write to CTRL with SRST clear is ignored (R27). -/
theorem controlWrite_clear {v : Word} (s : State) (hv : v.getLsbD 0 = false) : controlWrite v s = s :=
  if_neg (Bool.eq_false_iff.mp hv)

/-- The registers after a soft reset are those of `State.reset`; BUF, the host's and the built-in fields are kept (R121). -/
theorem softReset_eq_reset (s : State) :
    softReset s =
      { State.reset with
        buf := s.buf, inReset := s.inReset, response := s.response, pending := s.pending,
        hardResets := s.hardResets, genBase := s.genBase } := rfl

/-- Outside reset, a 32-bit write to CTRL is answered with what CTRL does. -/
theorem step_write_ctrl {s : State} (rest : List BusEvent) (v : Word) (hr : s.inReset = false) :
    step { s with pending := .write 0x0014#32 32 v :: rest } = .next (controlWrite v (answered s rest .written)) :=
  step_write rest v hr target_ctrl

end Sys2Proof.Machine
end

section
/-! PROOFS. The soft reset (R27, R121). -/

namespace Sys2Proof.Machine

/-- Settles O27: bit 0 of the word written to CTRL decides between the soft reset and nothing, and the latch outlives every
event that is no reset (`step_latch`). -/
theorem softResetKeepsTheBuffer : Obligations.SoftResetKeepsTheBuffer := by
  unfold Obligations.SoftResetKeepsTheBuffer
  refine ⟨fun s rest v hr hv => ?_, fun s rest v hr hv => ?_, fun s t rest e hf hreset ht => (step_latch hf hreset ht).1⟩
  · have hreleased : (answered s rest .written).inReset = false := hr
    rw [step_write_ctrl rest v hr, controlWrite_set _ hv, softReset_eq_reset, hreleased]
    rfl
  · rw [step_write_ctrl rest v hr, controlWrite_clear _ hv]

end Sys2Proof.Machine
end

section
/-! SUPPORT. The encoder undoes the decoder (R45 to R48). -/

namespace Sys2Proof

/-- Fields that decode to a command hold its OP and its operands. -/
theorem decodeFields_eq_some {op : BitVec 8} {a b : BitVec 12} {i : Instr} (h : decodeFields op a b = some i) :
    op = opcodeOf i ∧ a.toNat = operandA i ∧ b.toNat = operandB i := by
  by_cases hop : op ∈ legalOpcodes
  · obtain rfl | rfl | rfl | rfl | rfl | rfl | rfl | rfl | rfl := legalOpcodes_cases hop
    all_goals
      simp only [decodeFields_nop, decodeFields_setw, decodeFields_gfexp, decodeFields_gflog, decodeFields_gfmul,
        decodeFields_genbld, decodeFields_genrd, decodeFields_rsenc, decodeFields_rsencp,
        Option.ite_none_right_eq_some, Option.some.injEq] at h
    case inl =>
      obtain ⟨⟨rfl, rfl⟩, rfl⟩ := h
      exact ⟨rfl, rfl, rfl⟩
    -- Of the other eight, those of one operand have the condition A = 0.
    all_goals
      obtain ⟨rfl, rfl⟩ := h
      exact ⟨rfl, rfl, rfl⟩
  · rw [decodeFields_of_not_mem hop] at h
    cases h

/-- A command is well formed when both its operand fields hold their operands (R48). -/
theorem wellFormed_of_operands {i : Instr} (ha : operandA i < 4096) (hb : operandB i < 4096) : i.wellFormed = true := by
  cases i with
  | nop => rfl
  | gflog x => rfl
  | gfmul a b => rfl
  | setw n => exact (fitsField_iff n).mpr hb
  | gfexp n => exact (fitsField_iff n).mpr hb
  | genbld n => exact (fitsField_iff n).mpr hb
  | genrd d j => exact Bool.and_eq_true_iff.mpr ⟨(fitsField_iff d).mpr ha, (fitsField_iff j).mpr hb⟩
  | rsenc k e => exact Bool.and_eq_true_iff.mpr ⟨(fitsField_iff k).mpr ha, (fitsField_iff e).mpr hb⟩
  | rsencp n e => exact Bool.and_eq_true_iff.mpr ⟨(fitsField_iff n).mpr ha, (fitsField_iff e).mpr hb⟩

/-- A word that decodes to a command is that command's word, and the command is well formed. -/
theorem encode_of_decode {v : Word} {i : Instr} (h : decode v = some i) : i.wellFormed = true ∧ encode i = v := by
  obtain ⟨hop, ha, hb⟩ := decodeFields_eq_some h
  have hwf : i.wellFormed = true := wellFormed_of_operands (ha ▸ (fieldA v).isLt) (hb ▸ (fieldB v).isLt)
  obtain ⟨hop', ha', hb'⟩ := encode_fields i hwf
  refine ⟨hwf, word_ext_fields ?_ ?_ ?_⟩
  · rw [hop, BitVec.eq_of_toNat_eq hop']
  · exact BitVec.eq_of_toNat_eq (ha'.trans ha.symm)
  · exact BitVec.eq_of_toNat_eq (hb'.trans hb.symm)

end Sys2Proof
end

section
/-! PROOFS. The encoding (R45 to R48). -/

namespace Sys2Proof.Machine

/-- Settles O31: the fields of a well-formed command's word hold its OP and operands, and the decoder reads the fields. -/
theorem decodeOfEncode : Obligations.DecodeOfEncode := by
  unfold Obligations.DecodeOfEncode
  exact fun i => decode_encode

/-- Settles O32: the three fields of a word determine it, and they are those of the command they decode to. -/
theorem encodeOfDecode : Obligations.EncodeOfDecode := by
  unfold Obligations.EncodeOfDecode
  exact fun v i => encode_of_decode

/-- Settles O33: the decoder, run on the eight words. -/
theorem wordsOfTheEncodingTable : Obligations.WordsOfTheEncodingTable := by
  unfold Obligations.WordsOfTheEncodingTable
  decide

end Sys2Proof.Machine
end

section
/-! PROOFS. Steps, register reads and resets (R22 to R27, R29, R40, R100, R120). -/

namespace Sys2Proof.Machine

/-- Settles O20: a fault is a next state too. -/
theorem everyCommandRuns : Obligations.EveryCommandRuns := by
  unfold Obligations.EveryCommandRuns
  exact exec_next

/-- A legal word written to CMD runs its command, on the state with the access taken and answered (R23, R40). -/
theorem step_commandWrite {s : State} {v : Word} {i : Instr} (rest : List BusEvent) (hr : s.inReset = false)
    (hf : s.fault = false) (hd : decode v = some i) :
    step { s with pending := .write 0x0004#32 32 v :: rest } = exec i (answered s rest .written) := by
  rw [step_write rest v hr target_cmd]
  exact commandWrite_legal (s := answered s rest .written) hf hd

/-- Settles O21: the access names CMD, and a legal word written there while FAULT = 0 runs its command. -/
theorem stepRunsTheDecodedCommand : Obligations.StepRunsTheDecodedCommand := by
  unfold Obligations.StepRunsTheDecodedCommand
  refine ⟨fun s rest v i hr hf hd => step_commandWrite rest hr hf hd, fun s v i hf hd => ?_⟩
  have hword : BitVec.ofNat 32 (v.toNat % 2 ^ 32) = v := by
    rw [Nat.mod_eq_of_lt v.isLt, BitVec.ofNat_toNat, BitVec.setWidth_eq]
  rw [State.withFetchWord, hword]
  exact step_commandWrite (s := { s with inReset := false }) s.pending rfl hf hd

/-- Settles O22: each offset names its register, and a read answers the register's word. -/
theorem registerReads : Obligations.RegisterReads := by
  unfold Obligations.RegisterReads
  intro s rest hr
  have hgendeg : target 0x0010#32 32 = .ok .gendeg := target_ok (by decide) (by decide)
  refine ⟨step_read rest hr (target_ok (l := .id) (by decide) (by decide)), step_read rest hr target_cmd,
    step_read rest hr target_status, step_read rest hr (target_ok (l := .result) (by decide) (by decide)),
    fun hnone => ?_, fun w hw => ?_, step_read rest hr target_ctrl⟩
  · rw [step_read rest hr hgendeg, readLocation, gendegRegister, hnone]
    rfl
  · rw [step_read rest hr hgendeg, readLocation, gendegRegister, hw]

/-- Settles O28: the two edges of rst_n act on the state as R120's table says, and accesses between them are refused. -/
theorem hardResetForgetsEverything : Obligations.HardResetForgetsEverything := by
  unfold Obligations.HardResetForgetsEverything
  exact ⟨fun s rest => ⟨hardReset { s with pending := rest }, rfl, rfl, fun i => rfl⟩,
    fun s rest off width v hr => ⟨step_read_inReset rest off width hr, step_write_inReset rest off width v hr⟩,
    fun s rest => rfl⟩

/-- Settles O29: the reset values, field by field, and the words the registers read as there. -/
theorem resetValues : Obligations.ResetValues := by
  unfold Obligations.ResetValues
  exact ⟨rfl, rfl, rfl, rfl, fun w => by cases w <;> rfl, rfl, rfl, rfl, rfl, rfl, rfl, rfl⟩

end Sys2Proof.Machine
end

section
/-! SUPPORT. What an encode that passes its checks does (R75), and which fields each command can write (R59 to R62, R69, R70, R75,
R76, R81, R102). -/

namespace Sys2Proof.Machine

/-- Data words that pass check 5 of R75 are a message over the field. -/
theorem allInField_memRead {s : State} {w : WordSize} {k : Nat} (h : ∀ i < k, (bufRead s i).toNat < w.size) :
    allInField w (memRead s 0 k) := by
  refine List.forall_mem_map.mpr fun i hi => ?_
  rw [Nat.zero_add]
  exact h i (List.mem_range.mp hi)

theorem le_of_not_encodeOutOfRange {s : State} {w : WordSize} {k e : Nat} (hok : ¬ EncodeOutOfRange s w k e) :
    e ≤ w.degMax ∧ k + e ≤ 4096 := by
  obtain ⟨he, hrest⟩ := not_or.mp hok
  obtain ⟨hk, -⟩ := not_or.mp hrest
  exact ⟨Nat.not_lt.mp he, Nat.not_lt.mp hk⟩

/-- An encode that passes its checks writes the check words of its data behind them and raises the counter (R75). -/
theorem encodeBlock_eq {s : State} {w : WordSize} {k e : Nat} (he : 1 ≤ e) (hok : ¬ EncodeOutOfRange s w k e) :
    encodeBlock w k e s = .next (memWrite (build s w e) k (checkWords s.genBase w (memRead s 0 k) e)) := by
  obtain ⟨hbad, -⟩ | ⟨⟨-, -, hdata⟩, hrest⟩ := encodeBlock_cases w k e s
  · exact absurd hbad hok
  · have hcheck := rsCheck_eq_checkWords s.genBase he (allInField_memRead hdata)
    obtain ⟨hnone, -⟩ | ⟨c, hc, hdone⟩ := hrest
    · exact absurd hnone (rsCheck_ne_none _ w _ e)
    · rw [hcheck, Option.some.injEq] at hc
      rw [hdone, hc]

/-- The fields a command can write: a fault latches FAULT and ERR; a command that completes writes what its rule names. -/
inductive CommandEffect (s : State) : Instr → State → Prop
  | fault (i : Instr) {c : FaultCode} (hc : c ≠ .degenerate) : CommandEffect s i (raiseFault s c)
  | nop : CommandEffect s .nop s
  | setw (n : Nat) (w : WordSize) : CommandEffect s (.setw n) { s with wsel := some w }
  | gfexp {w : WordSize} (hw : s.wsel = some w) (n : Nat) (r : Elem) : CommandEffect s (.gfexp n) { s with result := r }
  | gflog {w : WordSize} (hw : s.wsel = some w) (x r : Elem) : CommandEffect s (.gflog x) { s with result := r }
  | gfmul {w : WordSize} (hw : s.wsel = some w) (a b r : Elem) : CommandEffect s (.gfmul a b) { s with result := r }
  | genbld {w : WordSize} (hw : s.wsel = some w) {d : Nat} (hd : d ≤ w.degMax) :
      CommandEffect s (.genbld d) (build s w d)
  | genrd {w : WordSize} (hw : s.wsel = some w) {d : Nat} (hd : d ≤ w.degMax) (j : Nat) (r : Elem) :
      CommandEffect s (.genrd d j) { build s w d with result := r }
  | rsenc {w : WordSize} (hw : s.wsel = some w) {k e : Nat} (he : e ≤ w.degMax) {c : Poly} (hc : k + c.length ≤ 4096) :
      CommandEffect s (.rsenc k e) (memWrite (build s w e) k c)
  | rsencp {w : WordSize} (hw : s.wsel = some w) (n : Nat) {k e : Nat} (he : e ≤ w.degMax) {c : Poly}
      (hc : k + c.length ≤ 4096) : CommandEffect s (.rsencp n e) (memWrite (build s w e) k c)

/-- Where the outcome is a next state, it is one the command can reach from s. -/
def HasEffect (s : State) (i : Instr) (o : Outcome) : Prop := ∀ t, o = .next t → CommandEffect s i t

theorem hasEffect_next {s t : State} {i : Instr} (h : CommandEffect s i t) : HasEffect s i (.next t) := by
  rintro _ ⟨⟩
  exact h

/-- A check before an operation: it faults, or the operation goes on. -/
theorem hasEffect_check {s : State} {i : Instr} {c : FaultCode} {o : Outcome} {bad : Prop} [Decidable bad]
    (hc : c ≠ .degenerate) (ho : ¬ bad → HasEffect s i o) : HasEffect s i (if bad then faulted s c else o) := by
  split
  case isTrue => exact hasEffect_next (.fault i hc)
  case isFalse hok => exact ho hok

theorem hasEffect_withField {s : State} {i : Instr} {k : WordSize → Outcome}
    (hk : ∀ w, s.wsel = some w → HasEffect s i (k w)) : HasEffect s i (withField s k) := by
  cases hs : s.wsel with
  | none => rw [withField_none hs]; exact hasEffect_next (.fault i (by decide))
  | some w => rw [withField_some hs]; exact hk w hs

theorem hasEffect_encodeBlock {s : State} {i : Instr} {w : WordSize} {k e : Nat} (he : 1 ≤ e)
    (h : ∀ c : Poly, e ≤ w.degMax → k + c.length ≤ 4096 → CommandEffect s i (memWrite (build s w e) k c)) :
    HasEffect s i (encodeBlock w k e s) := by
  by_cases hbad : EncodeOutOfRange s w k e
  · rw [encodeBlock_range hbad]
    exact hasEffect_next (.fault i (by decide))
  · rw [encodeBlock_eq he hbad]
    obtain ⟨hdeg, hk⟩ := le_of_not_encodeOutOfRange hbad
    exact hasEffect_next (h _ hdeg (by rwa [checkWords_length]))

theorem hasEffect_exec (i : Instr) (s : State) : HasEffect s i (exec i s) := by
  cases i with
  | nop => exact hasEffect_next .nop
  | setw n =>
    change HasEffect s _ (execSetw n s)
    unfold execSetw
    split
    · exact hasEffect_next (.fault _ (by decide))
    · exact hasEffect_next (.setw n _)
  | gfexp n =>
    exact hasEffect_withField fun w hw => hasEffect_check (by decide) fun _ => hasEffect_next (.gfexp hw n _)
  | gflog x =>
    exact hasEffect_withField fun w hw => hasEffect_check (by decide) fun _ => hasEffect_next (.gflog hw x _)
  | gfmul a b =>
    exact hasEffect_withField fun w hw => hasEffect_check (by decide) fun _ => hasEffect_next (.gfmul hw a b _)
  | genbld d =>
    exact hasEffect_withField fun w hw =>
      hasEffect_check (by decide) fun hd => hasEffect_next (.genbld hw (Nat.not_lt.mp hd))
  | genrd d j =>
    exact hasEffect_withField fun w hw =>
      hasEffect_check (by decide) fun hd => hasEffect_check (by decide) fun _ =>
        hasEffect_next (.genrd hw (Nat.not_lt.mp hd) j _)
  | rsenc k e =>
    exact hasEffect_withField fun w hw => hasEffect_check (by decide) fun hin =>
      hasEffect_encodeBlock (Nat.pos_of_ne_zero (not_or.mp hin).1) fun c he hc => .rsenc hw he hc
  | rsencp n e =>
    exact hasEffect_withField fun w hw => hasEffect_check (by decide) fun hin =>
      hasEffect_encodeBlock (Nat.pos_of_ne_zero (not_or.mp hin).1) fun c he hc => .rsencp hw n he hc

/-- What a command that answered did. -/
theorem commandEffect_of_exec {i : Instr} {s t : State} (h : exec i s = .next t) : CommandEffect s i t :=
  hasEffect_exec i s t h

end Sys2Proof.Machine
end

section
/-! SUPPORT. What a step can do, event by event (R12, R40): every invariant of the machine is derived from this. -/

namespace Sys2Proof.Machine

/-- The states an event can lead to, where it is answered. -/
inductive EventEffect (s : State) (rest : List BusEvent) : BusEvent → State → Prop
  | hardReset : EventEffect s rest .assertReset (hardReset { s with pending := rest })
  | release : EventEffect s rest .releaseReset (releaseReset { s with pending := rest })
  | answer (e : BusEvent) (r : Response) : EventEffect s rest e (answered s rest r)
  | softReset {e : BusEvent} (he : isResetEvent e = true) : EventEffect s rest e (softReset (answered s rest .written))
  | bufWrite (e : BusEvent) (hr : s.inReset = false) {i : Nat} (hi : i < Config.bufWords) (v : Elem) :
      EventEffect s rest e (bufWrite (answered s rest .written) i v)
  | illegal (e : BusEvent) (hr : s.inReset = false) :
      EventEffect s rest e (raiseFault (answered s rest .written) .opcode)
  | command (e : BusEvent) (hr : s.inReset = false) {i : Instr} {t : State}
      (h : CommandEffect (answered s rest .written) i t) : EventEffect s rest e t

/-- What a write that was answered did. -/
theorem eventEffect_write {s t : State} {rest : List BusEvent} {off : Word} {width : Nat} {v : Word}
    (h : step { s with pending := .write off width v :: rest } = .next t) :
    EventEffect s rest (.write off width v) t := by
  have hr : s.inReset = false := by
    rw [← Bool.not_eq_true]
    intro hr
    rw [step_write_inReset rest off width v hr] at h
    cases h
  obtain ⟨l, hl, hwrite⟩ := step_write_inv h
  cases l with
  | cmd =>
    obtain ⟨-, hignored⟩ | ⟨-, -, hillegal⟩ | ⟨-, i, -, hexec⟩ := commandWrite_cases v (answered s rest .written)
    · cases hignored.symm.trans hwrite
      exact .answer _ _
    · cases hillegal.symm.trans hwrite
      exact .illegal _ hr
    · exact .command _ hr (commandEffect_of_exec (hexec.symm.trans hwrite))
  | ctrl =>
    cases hwrite
    cases hreset : isResetEvent (.write off width v) with
    | false =>
      rw [controlWrite_clear _ (getLsbD_zero_of_target_ctrl hreset hl)]
      exact .answer _ _
    | true =>
      simp only [isResetEvent, Bool.and_eq_true] at hreset
      rw [controlWrite_set _ hreset.2]
      exact .softReset (by simpa only [isResetEvent, Bool.and_eq_true] using hreset)
  | buf i =>
    cases hwrite
    exact .bufWrite _ hr (locate_buf_lt (target_ok_inv hl).2.2) _
  | _ =>
    cases hwrite
    exact .answer _ _

/-- What a step that was answered did with the oldest event. -/
theorem eventEffect_of_step {s t : State} {rest : List BusEvent} {e : BusEvent}
    (h : step { s with pending := e :: rest } = .next t) : EventEffect s rest e t := by
  cases e with
  | assertReset => cases h; exact .hardReset
  | releaseReset => cases h; exact .release
  | read off width =>
    obtain ⟨l, -, rfl⟩ := step_read_inv h
    exact .answer _ _
  | write off width v => exact eventEffect_write h

/-- A step with no event in store, or one that takes the oldest event. -/
theorem step_inv {s t : State} (h : step s = .next t) :
    t = s ∨ ∃ e rest, s.pending = e :: rest ∧ EventEffect s rest e t := by
  cases hp : s.pending with
  | nil =>
    rw [step_idle hp] at h
    cases h
    exact .inl rfl
  | cons e rest =>
    refine .inr ⟨e, rest, rfl, eventEffect_of_step ?_⟩
    rw [← hp]
    exact h

end Sys2Proof.Machine
end

section
/-! SUPPORT. The block's invariant (R16 to R20, R101, R120), kept by every operation. -/

namespace Sys2Proof.Machine

theorem gendeg_build_le {s : State} (h : ∀ w, (gendeg s w).toNat ≤ w.degMax) {w : WordSize} {d : Nat}
    (hd : d ≤ w.degMax) (w' : WordSize) : (gendeg (build s w d) w').toNat ≤ w'.degMax := by
  by_cases hw : w' = w
  · subst hw
    rw [gendeg_build_of_le_degMax hd]
    exact Nat.max_le.mpr ⟨h w', hd⟩
  · rw [gendeg_build_other hw]
    exact h w'

/-- With a field selected and rst_n released, the invariant speaks of the latch, the counters and BUF only. -/
theorem Invariant.of_selected {s t : State} {w : WordSize} (h : Invariant s) (hw : s.wsel = some w)
    (hr : s.inReset = false) (hwsel : t.wsel = s.wsel) (hreset : t.inReset = s.inReset) (hfault : t.fault = s.fault)
    (herr : t.err = s.err) (hdeg : ∀ w, (gendeg t w).toNat ≤ w.degMax) (hmem : Memory.wf t.buf = true) :
    Invariant t where
  latch := by rw [hfault, herr]; exact h.latch
  code := by rw [herr]; exact h.code
  degree := hdeg
  unselected hnone := by rw [hwsel, hw] at hnone; cases hnone
  memory := hmem
  held hheld := by rw [hreset, hr] at hheld; cases hheld

theorem errCode_latched {c : FaultCode} (hc : c ≠ .degenerate) :
    errCode c = 1#4 ∨ errCode c = 2#4 ∨ errCode c = 4#4 ∨ errCode c = 5#4 := by
  cases c with
  | degenerate => exact absurd rfl hc
  | _ => decide

theorem Invariant.raiseFault {s : State} (h : Invariant s) (hr : s.inReset = false) {c : FaultCode}
    (hc : c ≠ .degenerate) : Invariant (raiseFault s c) where
  latch := by
    rw [raiseFault_fault, raiseFault_err]
    cases c <;> decide
  code := .inr (errCode_latched hc)
  degree w := by rw [gendeg_raiseFault]; exact h.degree w
  unselected hnone := by simpa using h.unselected hnone
  memory := h.memory
  held hheld := by rw [raiseFault_inReset, hr] at hheld; cases hheld

/-- Every command keeps the invariant. -/
theorem Invariant.command {s t : State} {i : Instr} (h : Invariant s) (hr : s.inReset = false)
    (hst : CommandEffect s i t) : Invariant t := by
  have hencode {w : WordSize} (hw : s.wsel = some w) {k e : Nat} (he : e ≤ w.degMax) {c : Poly}
      (hc : k + c.length ≤ 4096) : Invariant (memWrite (build s w e) k c) := by
    refine h.of_selected hw hr (by simp) (by simp) (by simp) (by simp) (fun w' => ?_) ?_
    · rw [gendeg_memWrite]
      exact gendeg_build_le h.degree he w'
    · exact memory_wf_memWrite _ _ _ hc (by rw [build_buf]; exact h.memory)
  cases hst with
  | fault _ hc => exact h.raiseFault hr hc
  | nop => exact h
  | setw n w =>
    exact ⟨h.latch, h.code, h.degree, nofun, h.memory, fun hheld => nomatch hr.symm.trans hheld⟩
  | gfexp hw | gflog hw | gfmul hw => exact h.of_selected hw hr rfl rfl rfl rfl h.degree h.memory
  | genbld hw hd =>
    exact h.of_selected hw hr (by simp) (by simp) (by simp) (by simp) (gendeg_build_le h.degree hd)
      (by rw [build_buf]; exact h.memory)
  | genrd hw hd =>
    exact h.of_selected hw hr (by simp) (by simp) (by simp) (by simp) (gendeg_build_le h.degree hd)
      (by rw [build_buf]; exact h.memory)
  | rsenc hw he hc => exact hencode hw he hc
  | rsencp hw n he hc => exact hencode hw he hc

/-- Reset registers, and a BUF in canonical form that is empty while rst_n is asserted. -/
theorem invariant_of_softReset {s : State} (hs : softReset s = s) (hmem : Memory.wf s.buf = true)
    (hbuf : s.inReset = true → s.buf = []) : Invariant s where
  latch := by rw [← hs, softReset_fault, softReset_err]; decide
  code := by rw [← hs]; exact .inl rfl
  degree w := by rw [← hs, gendeg_softReset]; exact Nat.zero_le _
  unselected _ := by rw [← hs]; exact ⟨rfl, gendeg_softReset s⟩
  memory := hmem
  held hr := ⟨hs, hbuf hr⟩

/-- The port's answer and the host's events take no part in the invariant. -/
theorem Invariant.answered {s : State} (h : Invariant s) (rest : List BusEvent) (r : Response) :
    Invariant (answered s rest r) := by
  refine ⟨h.latch, h.code, h.degree, h.unselected, h.memory, fun hr => ?_⟩
  obtain ⟨hs, hbuf⟩ := h.held hr
  exact ⟨congrArg (Machine.answered · rest r) hs, hbuf⟩

/-- Every event that is answered keeps the invariant. -/
theorem Invariant.event {s t : State} {rest : List BusEvent} {e : BusEvent} (h : Invariant s)
    (hst : EventEffect s rest e t) : Invariant t := by
  have hanswered := h.answered rest .written
  cases hst with
  | hardReset => exact invariant_of_softReset rfl rfl fun _ => rfl
  | release => exact ⟨h.latch, h.code, h.degree, h.unselected, h.memory, nofun⟩
  | answer _ r => exact h.answered rest r
  | softReset => exact invariant_of_softReset rfl h.memory fun hr => (h.held hr).2
  | bufWrite _ hr hi v =>
    exact ⟨h.latch, h.code, h.degree, h.unselected, memory_wf_write v hi h.memory, fun hheld => nomatch hr.symm.trans hheld⟩
  | illegal _ hr => exact hanswered.raiseFault hr (by decide)
  | command _ hr hcommand => exact hanswered.command hr hcommand

end Sys2Proof.Machine
end

section
/-! PROOFS. The invariant (10_state.md section 4). -/

namespace Sys2Proof.Machine

/-- Settles O34: a step does nothing or takes an event, and every event keeps the invariant. -/
theorem stepKeepsTheInvariant : Obligations.StepKeepsTheInvariant := by
  unfold Obligations.StepKeepsTheInvariant
  intro s t h hst
  obtain rfl | ⟨e, rest, -, hevent⟩ := step_inv hst
  · exact h
  · exact h.event hevent

/-- Settles O35: the registers hold their reset values and BUF lists nothing. -/
theorem resetMeetsTheInvariant : Obligations.ResetMeetsTheInvariant := by
  unfold Obligations.ResetMeetsTheInvariant
  have hreset (base : GenBase) : Invariant (State.resetFor base) := invariant_of_softReset rfl rfl fun _ => rfl
  exact ⟨hreset Config.genBase, hreset⟩

end Sys2Proof.Machine
end

section
/-! SUPPORT. The arithmetic of each field (R51, R56 to R58): doubling is additive, the product by a power of 2 is a number of
doublings, and so the field laws hold of the table product, and it is the product of polynomials modulo PRIM(w). -/

namespace Sys2Proof.Machine

open Function

/-- A doubling is a shift, and the addition of PRIM(w) where the bit of 2^w is set (R52). -/
theorem double_eq_xor {w : WordSize} {x : Nat} (hx : x < 2 ^ w.bits) :
    double w x = x <<< 1 ^^^ (if (x <<< 1).testBit w.bits then w.prim else 0) := by
  have htop : 2 ^ w.bits ≤ x <<< 1 ↔ (x <<< 1).testBit w.bits = true := by
    refine ⟨fun hge => Nat.testBit_of_two_pow_le_and_two_pow_add_one_gt hge ?_, Nat.ge_two_pow_of_testBit⟩
    rw [Nat.shiftLeft_eq, Nat.pow_succ 2 w.bits]
    exact Nat.mul_lt_mul_of_pos_right hx (by decide)
  by_cases hge : 2 ^ w.bits ≤ x <<< 1
  · rw [if_pos (htop.mp hge)]
    exact if_pos hge
  · rw [if_neg (mt htop.mpr hge), Nat.xor_zero]
    exact if_neg hge

/-- Doubling is additive. -/
theorem double_xor {w : WordSize} {x y : Nat} (hx : x < 2 ^ w.bits) (hy : y < 2 ^ w.bits) :
    double w (x ^^^ y) = double w x ^^^ double w y := by
  rw [double_eq_xor hx, double_eq_xor hy, double_eq_xor (Nat.xor_lt_two_pow hx hy), Nat.shiftLeft_xor_distrib,
    Nat.testBit_xor]
  cases (x <<< 1).testBit w.bits <;> cases (y <<< 1).testBit w.bits <;>
    simp [Nat.xor_assoc, Nat.xor_left_comm, Nat.xor_comm]

theorem double_iterate_lt {w : WordSize} {x : Nat} (hx : x < 2 ^ w.bits) (n : Nat) : (double w)^[n] x < 2 ^ w.bits := by
  induction n with
  | zero => exact hx
  | succ n ih => rw [iterate_succ_apply']; exact double_lt ih

theorem double_iterate_xor {w : WordSize} {x y : Nat} (hx : x < 2 ^ w.bits) (hy : y < 2 ^ w.bits) (n : Nat) :
    (double w)^[n] (x ^^^ y) = (double w)^[n] x ^^^ (double w)^[n] y := by
  induction n with
  | zero => rfl
  | succ n ih =>
    rw [iterate_succ_apply', iterate_succ_apply', iterate_succ_apply', ih,
      double_xor (double_iterate_lt hx n) (double_iterate_lt hy n)]

/-- The power sequence as a function of the index modulo its period (R54 (c)). -/
theorem expTable_mod_order (w : WordSize) (n : Nat) : expTable w (n % w.order) = expTable w n :=
  Periodic.map_mod_nat (expTable_add_order w) n

theorem expElem_mod_order (w : WordSize) (n : Nat) : expElem w (n % w.order) = expElem w n :=
  congrArg (BitVec.ofNat 12) (expTable_mod_order w n)

theorem expElem_lt (w : WordSize) (i : Nat) : (expElem w i).toNat < 2 ^ w.bits := by
  rw [expElem_toNat]
  exact expTable_lt w i

theorem one_lt_size (w : WordSize) : (1#12).toNat < 2 ^ w.bits := by cases w <;> decide

/-- 1 is the unit of the field product (R56). -/
theorem gfMul_one_right {w : WordSize} {a : Elem} (ha : a.toNat < 2 ^ w.bits) : gfMul w a 1#12 = a := by
  rw [gfMul_comm, gfMul_one_left (Nat.le_pred_of_lt ha)]

/-- A product of powers of 2 adds the exponents (R58). -/
theorem gfMul_expElem (w : WordSize) (i j : Nat) : gfMul w (expElem w i) (expElem w j) = expElem w (i + j) := by
  have hlog (n : Nat) : logTable w (expTable w n) = n % w.order := by
    rw [← expTable_mod_order, logTable_expTable (Nat.mod_lt _ (order_pos w))]
  rw [gfMul_nonzero (expElem_ne_zero w i) (expElem_ne_zero w j), expElem_toNat, expElem_toNat, hlog, hlog,
    ← Nat.add_mod, expElem_mod_order]

/-- A non-zero element is a power of 2 (R54 (a)). -/
theorem exists_eq_expElem {w : WordSize} {a : Elem} (ha : a.toNat < 2 ^ w.bits) (hne : a ≠ 0#12) :
    ∃ i, a = expElem w i := by
  obtain ⟨-, hexp⟩ := expTable_logTable (toNat_pos hne) (Nat.le_pred_of_lt ha)
  exact ⟨_, BitVec.eq_of_toNat_eq (by rw [expElem_toNat, hexp])⟩

/-- The product by a power of 2 is that many doublings. -/
theorem gfMul_expElem_toNat {w : WordSize} {a : Elem} (ha : a.toNat < 2 ^ w.bits) (n : Nat) :
    (gfMul w a (expElem w n)).toNat = (double w)^[n] a.toNat := by
  by_cases hzero : a = 0#12
  · subst hzero
    rw [gfMul_zero_left]
    exact (iterate_fixed (double_zero w) n).symm
  · obtain ⟨i, rfl⟩ := exists_eq_expElem ha hzero
    rw [gfMul_expElem, expElem_toNat, expElem_toNat, expTable_eq_iterate, Nat.add_comm, iterate_add_apply,
      ← expTable_eq_iterate]

/-- Products distribute over sums on the left (R56). -/
theorem gfMul_gfAdd_left {w : WordSize} {a b c : Elem} (ha : a.toNat < 2 ^ w.bits) (hb : b.toNat < 2 ^ w.bits)
    (hc : c.toNat < 2 ^ w.bits) : gfMul w (gfAdd a b) c = gfAdd (gfMul w a c) (gfMul w b c) := by
  by_cases hzero : c = 0#12
  · simp [hzero, gfAdd]
  · obtain ⟨n, rfl⟩ := exists_eq_expElem hc hzero
    apply BitVec.eq_of_toNat_eq
    rw [gfMul_expElem_toNat (gfAdd_lt ha hb), gfAdd, gfAdd, BitVec.toNat_xor, BitVec.toNat_xor, gfMul_expElem_toNat ha,
      gfMul_expElem_toNat hb, double_iterate_xor ha hb]

/-- Products distribute over sums on the right (R56). -/
theorem gfMul_gfAdd_right {w : WordSize} {a b c : Elem} (ha : a.toNat < 2 ^ w.bits) (hb : b.toNat < 2 ^ w.bits)
    (hc : c.toNat < 2 ^ w.bits) : gfMul w a (gfAdd b c) = gfAdd (gfMul w a b) (gfMul w a c) := by
  rw [gfMul_comm, gfMul_gfAdd_left hb hc ha, gfMul_comm w b, gfMul_comm w c]

/-- The product is associative (R56). -/
theorem gfMul_assoc {w : WordSize} {a b c : Elem} (ha : a.toNat < 2 ^ w.bits) (hb : b.toNat < 2 ^ w.bits)
    (hc : c.toNat < 2 ^ w.bits) : gfMul w (gfMul w a b) c = gfMul w a (gfMul w b c) := by
  by_cases ha0 : a = 0#12
  · simp [ha0]
  by_cases hb0 : b = 0#12
  · simp [hb0]
  by_cases hc0 : c = 0#12
  · simp [hc0]
  obtain ⟨i, rfl⟩ := exists_eq_expElem ha ha0
  obtain ⟨j, rfl⟩ := exists_eq_expElem hb hb0
  obtain ⟨k, rfl⟩ := exists_eq_expElem hc hc0
  rw [gfMul_expElem, gfMul_expElem, gfMul_expElem, gfMul_expElem, Nat.add_assoc]

/-- The powers 2^n below 2^w are entry n of EXP[w] (R54 (b)). -/
theorem twoPow_eq_expElem {w : WordSize} {n : Nat} (hn : n < w.bits) : BitVec.twoPow 12 n = expElem w n := by
  have hbits : w.bits ≤ 12 := by cases w <;> decide
  apply BitVec.eq_of_toNat_eq
  rw [expElem_toNat, expTable_eq_two_pow hn, BitVec.toNat_twoPow,
    Nat.mod_eq_of_lt (Nat.pow_lt_pow_right (by decide) (by omega))]

/-- The low n bits of an element. -/
def lowBits (b : Elem) (n : Nat) : Elem := (b.setWidth n).setWidth 12

theorem getLsbD_lowBits (b : Elem) (n i : Nat) : (lowBits b n).getLsbD i = (decide (i < n) && b.getLsbD i) := by
  have hwide : 12 ≤ i → b.getLsbD i = false := BitVec.getLsbD_of_ge b i
  rw [lowBits, BitVec.getLsbD_setWidth, BitVec.getLsbD_setWidth]
  by_cases hi : i < 12
  · rw [decide_eq_true hi, Bool.true_and]
  · rw [hwide (Nat.not_lt.mp hi), Bool.and_false, Bool.and_false]

theorem lowBits_succ (b : Elem) (n : Nat) :
    lowBits b (n + 1) = gfAdd (lowBits b n) (if b.getLsbD n then BitVec.twoPow 12 n else 0#12) := by
  apply BitVec.eq_of_getLsbD_eq
  intro i hi
  have hbit : (if b.getLsbD n then BitVec.twoPow 12 n else 0#12).getLsbD i = (b.getLsbD n && decide (i = n)) := by
    cases b.getLsbD n <;> simp [hi, eq_comm]
  rw [gfAdd, BitVec.getLsbD_xor, getLsbD_lowBits, getLsbD_lowBits, hbit]
  obtain hlt | rfl | hgt := Nat.lt_trichotomy i n
  · simp [hlt, hlt.ne, Nat.lt_succ_of_lt hlt]
  · simp
  · simp [hgt.ne', Nat.not_lt.mpr hgt.le, Nat.not_lt.mpr (Nat.succ_le_of_lt hgt)]

theorem lowBits_lt {w : WordSize} {b : Elem} (hb : b.toNat < 2 ^ w.bits) (n : Nat) :
    (lowBits b n).toNat < 2 ^ w.bits := by
  rw [lowBits, BitVec.toNat_setWidth, BitVec.toNat_setWidth]
  exact ((Nat.mod_le _ _).trans (Nat.mod_le _ _)).trans_lt hb

/-- The low w bits of a field element are the element. -/
theorem lowBits_bits {w : WordSize} {b : Elem} (hb : b.toNat < 2 ^ w.bits) : lowBits b w.bits = b := by
  apply BitVec.eq_of_toNat_eq
  rw [lowBits, BitVec.toNat_setWidth, BitVec.toNat_setWidth, Nat.mod_eq_of_lt hb, Nat.mod_eq_of_lt b.isLt]

/-- The product by the low n bits of b is the sum of a doubled i times over the bits i set there (R51). -/
theorem gfMul_lowBits {w : WordSize} {a b : Elem} (ha : a.toNat < 2 ^ w.bits) (hb : b.toNat < 2 ^ w.bits) {n : Nat}
    (hn : n ≤ w.bits) :
    (gfMul w a (lowBits b n)).toNat =
      (List.range n).foldl (fun acc i => acc ^^^ (if b.getLsbD i then (double w)^[i] a.toNat else 0)) 0 := by
  induction n with
  | zero =>
    have hzero : lowBits b 0 = 0#12 := BitVec.eq_of_getLsbD_eq fun i _ => by simp [getLsbD_lowBits]
    rw [hzero, gfMul_zero_right]
    rfl
  | succ n ih =>
    have hbit : (if b.getLsbD n then BitVec.twoPow 12 n else 0#12).toNat < 2 ^ w.bits := by
      split
      · rw [twoPow_eq_expElem hn]; exact expElem_lt w n
      · exact size_pos w
    rw [lowBits_succ, gfMul_gfAdd_right ha (lowBits_lt hb n) hbit, List.range_succ, List.foldl_append, ← ih (by omega),
      gfAdd, BitVec.toNat_xor]
    refine congrArg (_ ^^^ ·) ?_
    by_cases hset : b.getLsbD n
    · rw [if_pos hset, if_pos hset, twoPow_eq_expElem hn, gfMul_expElem_toNat ha]
    · rw [if_neg hset, if_neg hset, gfMul_zero_right]
      rfl

end Sys2Proof.Machine
end

section
/-! PROOFS. The field (R51, R56, R58). -/

namespace Sys2Proof.Machine

/-- Settles O42: the product by a power of 2 is an iterate of the additive map `double`, and the non-zero elements are the powers
of 2, whose exponents a product adds. -/
theorem fieldLaws : Obligations.FieldLaws := by
  unfold Obligations.FieldLaws
  intro w a b c ha hb hc
  refine ⟨gfMul_lt w a b, gfAdd_lt ha hb, gfMul_comm w a b, gfMul_assoc ha hb hc, gfMul_gfAdd_right ha hb hc,
    gfMul_one_left (Nat.le_pred_of_lt ha), gfMul_zero_left w a, fun hzero => ?_⟩
  by_contra hne
  obtain ⟨ha0, hb0⟩ := not_or.mp hne
  exact gfMul_ne_zero ha0 hb0 hzero

/-- Settles O43: the product by b is the sum of the products by the powers of 2 that make up b, and those are doublings. -/
theorem tableProductIsPolynomialProduct : Obligations.TableProductIsPolynomialProduct := by
  unfold Obligations.TableProductIsPolynomialProduct
  intro w a b ha hb
  rw [basisProduct, ← gfMul_lowBits ha hb (Nat.le_refl _), lowBits_bits hb]

end Sys2Proof.Machine
end

section
/-! SUPPORT. The value of a sequence by Horner's rule (R66, R73), of a sum and of a multiple. -/

namespace Sys2Proof.Machine

/-- Horner's rule from a running value. -/
def hornerFrom (w : WordSize) (x : Elem) (acc : Elem) (p : Poly) : Elem :=
  p.foldl (fun acc c => gfAdd (gfMul w acc x) c) acc

theorem polyEval_eq_hornerFrom (w : WordSize) (p : Poly) (x : Elem) : polyEval w p x = hornerFrom w x 0#12 p := rfl

@[simp] theorem hornerFrom_nil (w : WordSize) (x acc : Elem) : hornerFrom w x acc [] = acc := rfl

theorem hornerFrom_cons (w : WordSize) (x acc c : Elem) (p : Poly) :
    hornerFrom w x acc (c :: p) = hornerFrom w x (gfAdd (gfMul w acc x) c) p := rfl

theorem hornerFrom_append (w : WordSize) (x acc : Elem) (p q : Poly) :
    hornerFrom w x acc (p ++ q) = hornerFrom w x (hornerFrom w x acc p) q :=
  List.foldl_append

/-- A running value is the coefficient before the sequence. -/
theorem polyEval_cons (w : WordSize) (x c : Elem) (p : Poly) : polyEval w (c :: p) x = hornerFrom w x c p := by
  rw [polyEval_eq_hornerFrom, hornerFrom_cons, gfMul_zero_left, gfAdd, BitVec.zero_xor]

theorem gfAdd_gfAdd_comm (a b c d : Elem) : gfAdd (gfAdd a b) (gfAdd c d) = gfAdd (gfAdd a c) (gfAdd b d) := by
  simp only [gfAdd, BitVec.xor_assoc]
  rw [← BitVec.xor_assoc b, BitVec.xor_comm b, BitVec.xor_assoc]

@[simp] theorem gfAdd_self (a : Elem) : gfAdd a a = 0#12 := BitVec.xor_self

@[simp] theorem gfAdd_zero (a : Elem) : gfAdd a 0#12 = a := BitVec.xor_zero

@[simp] theorem zero_gfAdd (a : Elem) : gfAdd 0#12 a = a := BitVec.zero_xor

/-- The value of a sum of two sequences of one length is the sum of their values. -/
theorem hornerFrom_addInto {w : WordSize} {x a b : Elem} {p q : Poly} (hlen : p.length = q.length)
    (hx : x.toNat < 2 ^ w.bits) (ha : a.toNat < 2 ^ w.bits) (hb : b.toNat < 2 ^ w.bits) (hp : allInField w p)
    (hq : allInField w q) :
    hornerFrom w x (gfAdd a b) (addInto p q) = gfAdd (hornerFrom w x a p) (hornerFrom w x b q) := by
  induction p generalizing q a b with
  | nil =>
    obtain rfl : q = [] := List.eq_nil_of_length_eq_zero hlen.symm
    rfl
  | cons c p ih =>
    obtain ⟨d, q, rfl⟩ := List.exists_cons_of_length_pos (l := q) (hlen ▸ Nat.succ_pos _)
    obtain ⟨hc, hp⟩ := List.forall_mem_cons.mp hp
    obtain ⟨hd, hq⟩ := List.forall_mem_cons.mp hq
    rw [addInto, hornerFrom_cons, gfMul_gfAdd_left ha hb hx, gfAdd_gfAdd_comm,
      ih (Nat.succ.inj hlen) (gfAdd_lt (gfMul_lt w a x) hc) (gfAdd_lt (gfMul_lt w b x) hd) hp hq]
    rfl

/-- The value of a multiple of a sequence is that multiple of its value. -/
theorem hornerFrom_map_gfMul {w : WordSize} {x c a : Elem} {p : Poly} (hx : x.toNat < 2 ^ w.bits)
    (hc : c.toNat < 2 ^ w.bits) (ha : a.toNat < 2 ^ w.bits) (hp : allInField w p) :
    hornerFrom w x (gfMul w c a) (p.map (gfMul w c)) = gfMul w c (hornerFrom w x a p) := by
  induction p generalizing a with
  | nil => rfl
  | cons d p ih =>
    obtain ⟨hd, hp⟩ := List.forall_mem_cons.mp hp
    rw [List.map_cons, hornerFrom_cons, gfMul_assoc hc ha hx, ← gfMul_gfAdd_right hc (gfMul_lt w a x) hd,
      ih (gfAdd_lt (gfMul_lt w a x) hd) hp]
    rfl

end Sys2Proof.Machine
end

section
/-! SUPPORT. The coefficients and the roots of the generators (R66, R68). -/

namespace Sys2Proof.Machine

theorem allInField_mulRows (w : WordSize) (p q : Poly) : allInField w (mulRows w p q) := by
  induction p with
  | nil => exact allInField_zeros w _
  | cons c p ih =>
    cases q with
    | nil => exact List.forall_mem_nil _
    | cons d q =>
      rw [mulRows_cons_cons]
      exact List.forall_mem_cons.mpr ⟨gfMul_lt w c d, allInField_addInto (allInField_map_gfMul w c q) ih⟩

theorem allInField_one (w : WordSize) : allInField w [1#12] :=
  List.forall_mem_singleton.mpr (one_lt_size w)

/-- The generators are polynomials over the field (R68 (a)). -/
theorem allInField_genPoly (base : GenBase) (w : WordSize) (d : Nat) : allInField w (genPoly base w d) := by
  cases d with
  | zero => exact allInField_one w
  | succ d =>
    rw [genPoly, polyMul_eq_mulRows w (genPoly_ne_zero_poly base w d) (by simp)]
    exact allInField_mulRows w _ _

/-- A generator is the one before it, shifted, plus its multiple by the new root (R66). -/
theorem genPoly_succ (base : GenBase) (w : WordSize) (d : Nat) :
    genPoly base w (d + 1) =
      addInto (genPoly base w d ++ [0#12]) (0#12 :: (genPoly base w d).map (gfMul w (expElem w (d + base.toNat)))) := by
  rw [genPoly, polyMul_eq_mulRows w (genPoly_ne_zero_poly base w d) (by simp),
    mulRows_two_terms _ (allInField_genPoly base w d), addInto_comm]
  have h := zipWith_append_zeros (r := genPoly base w d ++ [0#12])
    (ts := 0#12 :: (genPoly base w d).map (gfMul w (expElem w (d + base.toNat)))) (n := 0) (by simp)
  rwa [zeros_zero, List.append_nil] at h

/-- The constant term of a generator is that of the one before it, times the new root (R66). -/
theorem genPoly_constant_succ (base : GenBase) (w : WordSize) (d : Nat) :
    (genPoly base w (d + 1)).getD (d + 1) 0#12 =
      gfMul w (expElem w (d + base.toNat)) ((genPoly base w d).getD d 0#12) := by
  have hlast : (genPoly base w d ++ [0#12]).getD (d + 1) 0#12 = 0#12 := by
    rw [List.getD_append_right _ _ _ _ (by simp), genPoly_length, Nat.sub_self, List.getD_cons_zero]
  rw [genPoly_succ, addInto_getD, hlast, BitVec.zero_xor, List.getD_cons_succ, map_gfMul_getD]

/-- The exponent of R68 (b), degree by degree. -/
theorem constantExponent_succ (b d : Nat) :
    b * (d + 1) + (d + 1) * (d + 1 - 1) / 2 = d + b + (b * d + d * (d - 1) / 2) := by
  have htriangle : (d + 1) * (d + 1 - 1) / 2 = d * (d - 1) / 2 + d := Nat.triangle_succ d
  rw [htriangle, Nat.mul_succ]
  omega

/-- The constant term of a generator is a power of 2 (R68 (b)). -/
theorem genPoly_constant (base : GenBase) (w : WordSize) (d : Nat) :
    (genPoly base w d).getD d 0#12 = expElem w (base.toNat * d + d * (d - 1) / 2) := by
  induction d with
  | zero => rfl
  | succ d ih => rw [genPoly_constant_succ, ih, gfMul_expElem, constantExponent_succ]

/-- The value of a generator, by that of the one before it: P(x)·x + r·P(x) (R66). -/
theorem polyEval_genPoly_succ (base : GenBase) {w : WordSize} (d : Nat) {x : Elem} (hx : x.toNat < 2 ^ w.bits) :
    polyEval w (genPoly base w (d + 1)) x =
      gfAdd (gfMul w (polyEval w (genPoly base w d) x) x)
        (gfMul w (expElem w (d + base.toNat)) (polyEval w (genPoly base w d) x)) := by
  have hgen := allInField_genPoly base w d
  have hzero : (0#12).toNat < 2 ^ w.bits := size_pos w
  have hshift : hornerFrom w x 0#12 (genPoly base w d ++ [0#12]) = gfMul w (polyEval w (genPoly base w d) x) x := by
    rw [hornerFrom_append, hornerFrom_cons, hornerFrom_nil, gfAdd_zero]
    rfl
  have hscale : hornerFrom w x 0#12 (0#12 :: (genPoly base w d).map (gfMul w (expElem w (d + base.toNat)))) =
      gfMul w (expElem w (d + base.toNat)) (polyEval w (genPoly base w d) x) := by
    have h := hornerFrom_map_gfMul hx (expElem_lt w (d + base.toNat)) hzero hgen
    rw [gfMul_zero_right] at h
    exact (polyEval_cons w x 0#12 _).trans h
  have hsum := hornerFrom_addInto (w := w) (x := x) (a := 0#12) (b := 0#12) (p := genPoly base w d ++ [0#12])
    (q := 0#12 :: (genPoly base w d).map (gfMul w (expElem w (d + base.toNat)))) (by simp) hx hzero hzero
    (allInField_append hgen (allInField_zeros w 1)) (List.forall_mem_cons.mpr ⟨hzero, allInField_map_gfMul w _ _⟩)
  rw [gfAdd_zero, ← genPoly_succ, hshift, hscale] at hsum
  exact hsum

/-- The roots of a generator (R66). -/
theorem polyEval_genPoly_root (base : GenBase) (w : WordSize) {d i : Nat} (hi : i < d) :
    polyEval w (genPoly base w d) (expElem w (base.toNat + i)) = 0#12 := by
  induction d with
  | zero => cases hi
  | succ d ih =>
    rw [polyEval_genPoly_succ base d (expElem_lt w _)]
    obtain hlt | rfl := Nat.lt_succ_iff_lt_or_eq.mp hi
    · rw [ih hlt, gfMul_zero_left, gfMul_zero_right, gfAdd_self]
    · rw [Nat.add_comm, gfMul_comm w (expElem w _), gfAdd_self]

end Sys2Proof.Machine
end

section
/-! PROOFS. The generators (R66, R68). In the statements 2^w - 1 and 2^w - 2 stand written out for `WordSize.order` and
`WordSize.degMax`. -/

namespace Sys2Proof.Machine

/-- Settles O46: the product of monic polynomials is monic, and a leading 1 is not removed. -/
theorem generatorIsMonic : Obligations.GeneratorIsMonic := by
  unfold Obligations.GeneratorIsMonic
  intro base w d _
  refine ⟨genPoly_length base w d, genPoly_getD_zero base w d, allInField_genPoly base w d, ?_,
    genPoly_ne_zero_poly base w d⟩
  obtain ⟨p, hgen, -⟩ := genPoly_monic base w d
  rw [hgen, polyNorm_of_head p (by decide)]

/-- Settles O47: each factor multiplies the constant term by its root, so the exponents add up. -/
theorem generatorConstantTerm : Obligations.GeneratorConstantTerm := by
  unfold Obligations.GeneratorConstantTerm
  intro base w d _
  rw [genPoly_constant]
  exact ⟨(expElem_mod_order w _).symm, expElem_ne_zero w _⟩

/-- Settles O48, by evaluation. -/
theorem smallGenerators : Obligations.SmallGenerators := by
  unfold Obligations.SmallGenerators
  refine ⟨fun w => ?_, ?_⟩
  · cases w <;> decide +kernel
  · decide +kernel

/-- Settles O49: a root of one generator stays a root of the next, which has its new root besides; the roots are entries of EXP[w]
at different indices. -/
theorem generatorRoots : Obligations.GeneratorRoots := by
  unfold Obligations.GeneratorRoots
  intro base w d i hd hi
  refine ⟨polyEval_genPoly_root base w hi, fun j hj hij heq => hij ?_⟩
  have hbase : base.toNat ≤ 1 := by cases base <;> decide
  have hindex {n : Nat} (hn : n < d) : base.toNat + n < w.order := by
    have hd : d ≤ w.degMax := hd
    rw [order_eq]
    omega
  have hexp := congrArg BitVec.toNat heq
  rw [expElem_toNat, expElem_toNat] at hexp
  exact Nat.add_left_cancel (expTable_inj (hindex hi) (hindex hj) hexp)

end Sys2Proof.Machine
end

section
/-! SUPPORT. Rules for the whole machine: who writes what, the counters, the caches, GEN_BASE (R7, R16, R18 to R20, R28). -/

namespace Sys2Proof.Machine

/-- The fields no command writes. -/
theorem CommandEffect.frame {s t : State} {i : Instr} (h : CommandEffect s i t) :
    t.inReset = s.inReset ∧ t.response = s.response ∧ t.pending = s.pending ∧ t.hardResets = s.hardResets ∧
      t.genBase = s.genBase := by
  cases h <;> simp

/-- Only SETW writes WSEL (R16). -/
theorem CommandEffect.wsel {s t : State} {i : Instr} (h : CommandEffect s i t) :
    t.wsel = s.wsel ∨ ∃ n, i = .setw n := by
  cases h with
  | setw n w => exact .inr ⟨n, rfl⟩
  | _ => left; simp

/-- Only the four look-up commands write RESULT (R18). -/
theorem CommandEffect.result {s t : State} {i : Instr} (h : CommandEffect s i t) :
    t.result = s.result ∨
      (∃ n, i = .gfexp n) ∨ (∃ x, i = .gflog x) ∨ (∃ a b, i = .gfmul a b) ∨ ∃ d j, i = .genrd d j := by
  cases h with
  | gfexp hw n r => exact .inr (.inl ⟨n, rfl⟩)
  | gflog hw x r => exact .inr (.inr (.inl ⟨x, rfl⟩))
  | gfmul hw a b r => exact .inr (.inr (.inr (.inl ⟨a, b, rfl⟩)))
  | genrd hw hd j r => exact .inr (.inr (.inr (.inr ⟨_, j, rfl⟩)))
  | _ => left; simp

/-- Only the encode commands write BUF (R20). -/
theorem CommandEffect.buf {s t : State} {i : Instr} (h : CommandEffect s i t) :
    t.buf = s.buf ∨ (∃ k e, i = .rsenc k e) ∨ ∃ n e, i = .rsencp n e := by
  cases h with
  | rsenc => exact .inr (.inl ⟨_, _, rfl⟩)
  | rsencp hw n => exact .inr (.inr ⟨n, _, rfl⟩)
  | _ => left; simp

/-- Only the four building commands write a counter: the selected field's, which they raise (R19). -/
theorem CommandEffect.gendeg {s t : State} {i : Instr} (h : CommandEffect s i t) :
    (∀ w, Machine.gendeg t w = Machine.gendeg s w) ∨
      ((∃ d, i = .genbld d) ∨ (∃ d j, i = .genrd d j) ∨ (∃ k e, i = .rsenc k e) ∨ ∃ n e, i = .rsencp n e) ∧
        ∃ w d, s.wsel = some w ∧ d ≤ w.degMax ∧ ∀ w', Machine.gendeg t w' = Machine.gendeg (build s w d) w' := by
  cases h with
  | genbld hw hd => exact .inr ⟨.inl ⟨_, rfl⟩, _, _, hw, hd, fun w' => rfl⟩
  | genrd hw hd j =>
    exact .inr ⟨.inr (.inl ⟨_, j, rfl⟩), _, _, hw, hd, fun w' => gendeg_congr w' ⟨rfl, rfl, rfl, rfl, rfl⟩⟩
  | rsenc hw he => exact .inr ⟨.inr (.inr (.inl ⟨_, _, rfl⟩)), _, _, hw, he, gendeg_memWrite _ _ _⟩
  | rsencp hw n he => exact .inr ⟨.inr (.inr (.inr ⟨n, _, rfl⟩)), _, _, hw, he, gendeg_memWrite _ _ _⟩
  | fault => left; simp
  | _ => exact .inl fun w => gendeg_congr w ⟨rfl, rfl, rfl, rfl, rfl⟩

theorem gendeg_le_build (s : State) {w : WordSize} {d : Nat} (hd : d ≤ w.degMax) (w' : WordSize) :
    (gendeg s w').toNat ≤ (gendeg (build s w d) w').toNat := by
  by_cases hw : w' = w
  · subst hw
    rw [gendeg_build_of_le_degMax hd]
    exact Nat.le_max_left _ _
  · rw [gendeg_build_other hw]

/-- No command lowers a counter (R19). -/
theorem CommandEffect.gendeg_le {s t : State} {i : Instr} (h : CommandEffect s i t) (w : WordSize) :
    (Machine.gendeg s w).toNat ≤ (Machine.gendeg t w).toNat := by
  obtain hkept | ⟨-, w', d, -, hd, hbuilt⟩ := h.gendeg
  · rw [hkept]
  · rw [hbuilt]
    exact gendeg_le_build s hd w

@[simp] theorem gendeg_answered (s : State) (rest : List BusEvent) (r : Response) (w : WordSize) :
    gendeg (answered s rest r) w = gendeg s w := by
  cases w <;> rfl

/-- No event but a reset lowers a counter (R19). -/
theorem EventEffect.gendeg_le {s t : State} {rest : List BusEvent} {e : BusEvent} (h : EventEffect s rest e t)
    (hreset : isResetEvent e = false) (w : WordSize) : (Machine.gendeg s w).toNat ≤ (Machine.gendeg t w).toNat := by
  cases h with
  | hardReset => cases hreset
  | softReset he => cases he.symm.trans hreset
  | command _ _ hcommand =>
    have hle := hcommand.gendeg_le w
    rwa [gendeg_answered] at hle
  | release => exact Nat.le_of_eq (congrArg BitVec.toNat (gendeg_congr w ⟨rfl, rfl, rfl, rfl, rfl⟩))
  | _ => simp

/-- No event changes the parameter GEN_BASE (R7). -/
theorem EventEffect.genBase {s t : State} {rest : List BusEvent} {e : BusEvent} (h : EventEffect s rest e t) :
    t.genBase = s.genBase := by
  cases h with
  | command _ _ hcommand =>
    obtain ⟨-, -, -, -, hbase⟩ := hcommand.frame
    exact hbase
  | _ => rfl

end Sys2Proof.Machine
end

section
/-! SUPPORT. What a command's outcome does not depend on: the generator counters, which no command reads (R28), and for most
commands the parameter GEN_BASE (R7). -/

namespace Sys2Proof.Machine

@[simp] theorem forgetCaches_build (s : State) (w : WordSize) (d : Nat) :
    forgetCaches (build s w d) = forgetCaches s := by
  rw [build_eq]
  cases w <;> rfl

theorem forgetCaches_memWrite (s : State) (i : Nat) (vs : List Elem) :
    forgetCaches (memWrite s i vs) = memWrite (forgetCaches s) i vs := by
  induction vs generalizing s i with
  | nil => rfl
  | cons v vs ih => exact ih (bufWrite s i v) (i + 1)

/-- GEN_BASE set to a given value. -/
def withGenBase (base : GenBase) (s : State) : State := { s with genBase := base }

theorem withGenBase_build (base : GenBase) (s : State) (w : WordSize) (d : Nat) :
    withGenBase base (build s w d) = build (withGenBase base s) w d := by
  rw [build_eq, build_eq]
  cases w <;> rfl

/-- Two outcomes that are next states which agree under `f`. -/
def SameUpTo (f : State → State) (o o' : Outcome) : Prop :=
  ∃ t t', o = .next t ∧ o' = .next t' ∧ f t = f t'

theorem sameUpTo_next {f : State → State} {t t' : State} (h : f t = f t') : SameUpTo f (.next t) (.next t') :=
  ⟨t, t', rfl, rfl, h⟩

/-- A check that comes out the same in both states: both fault, or both operations go on. -/
theorem sameUpTo_check {f : State → State} {s u : State} {c : FaultCode} {o o' : Outcome} {bad : Prop} [Decidable bad]
    (hfault : f (raiseFault s c) = f (raiseFault u c)) (ho : ¬ bad → SameUpTo f o o') :
    SameUpTo f (if bad then faulted s c else o) (if bad then faulted u c else o') := by
  split
  case isTrue => exact sameUpTo_next hfault
  case isFalse hok => exact ho hok

theorem sameUpTo_withField {f : State → State} {s u : State} {k k' : WordSize → Outcome} (hwsel : u.wsel = s.wsel)
    (hfault : f (raiseFault s .wordsize) = f (raiseFault u .wordsize)) (hk : ∀ w, SameUpTo f (k w) (k' w)) :
    SameUpTo f (withField s k) (withField u k') := by
  cases hs : s.wsel with
  | none =>
    rw [withField_none hs, withField_none (hwsel.trans hs)]
    exact sameUpTo_next hfault
  | some w =>
    rw [withField_some hs, withField_some (hwsel.trans hs)]
    exact hk w

theorem sameUpTo_setw {f : State → State} {s u : State} (n : Nat)
    (hfault : f (raiseFault s .wordsize) = f (raiseFault u .wordsize))
    (hselect : ∀ w, f { s with wsel := some w } = f { u with wsel := some w }) :
    SameUpTo f (exec (.setw n) s) (exec (.setw n) u) := by
  change SameUpTo f (execSetw n s) (execSetw n u)
  unfold execSetw
  split
  · exact sameUpTo_next hfault
  · exact sameUpTo_next (hselect _)

/-- The check words and their place do not depend on the counters. -/
theorem sameUpTo_encodeBlock_forgetCaches (w : WordSize) (k : Nat) {e : Nat} (he : e ≠ 0) (s : State) :
    SameUpTo forgetCaches (encodeBlock w k e s) (encodeBlock w k e (forgetCaches s)) := by
  by_cases hbad : EncodeOutOfRange s w k e
  · rw [encodeBlock_range hbad, encodeBlock_range (s := forgetCaches s) hbad]
    exact sameUpTo_next rfl
  · have hpos := Nat.pos_of_ne_zero he
    rw [encodeBlock_eq hpos hbad, encodeBlock_eq (s := forgetCaches s) hpos hbad]
    refine sameUpTo_next ?_
    rw [forgetCaches_memWrite, forgetCaches_memWrite, forgetCaches_build, forgetCaches_build]
    rfl

/-- A command does the same with the caches forgotten (R28). -/
theorem exec_forgetCaches (i : Instr) (s : State) : SameUpTo forgetCaches (exec i s) (exec i (forgetCaches s)) := by
  have hbuild (w : WordSize) (d : Nat) : forgetCaches (build s w d) = forgetCaches (build (forgetCaches s) w d) := by
    rw [forgetCaches_build, forgetCaches_build]
    rfl
  cases i with
  | nop => exact sameUpTo_next rfl
  | setw n => exact sameUpTo_setw n rfl fun _ => rfl
  | gfexp | gflog | gfmul =>
    exact sameUpTo_withField rfl rfl fun w => sameUpTo_check rfl fun _ => sameUpTo_next rfl
  | genbld d => exact sameUpTo_withField rfl rfl fun w => sameUpTo_check rfl fun _ => sameUpTo_next (hbuild w d)
  | genrd d j =>
    refine sameUpTo_withField rfl rfl fun w => sameUpTo_check rfl fun _ => sameUpTo_check rfl fun _ => sameUpTo_next ?_
    exact congrArg (fun t => { t with result := (genPoly s.genBase w d).getD j 0#12 }) (hbuild w d)
  | rsenc k e =>
    exact sameUpTo_withField rfl rfl fun w => sameUpTo_check rfl fun hin =>
      sameUpTo_encodeBlock_forgetCaches w k (not_or.mp hin).1 s
  | rsencp n e =>
    exact sameUpTo_withField rfl rfl fun w => sameUpTo_check rfl fun hin =>
      sameUpTo_encodeBlock_forgetCaches w (n - e) (not_or.mp hin).1 s

/-- GENRD, RSENC and RSENCP aside, a command does the same for every GEN_BASE (R7). -/
theorem exec_withGenBase {i : Instr} (hgenrd : ∀ d j, i ≠ .genrd d j) (hrsenc : ∀ k e, i ≠ .rsenc k e)
    (hrsencp : ∀ n e, i ≠ .rsencp n e) (s : State) (base : GenBase) :
    SameUpTo (withGenBase base) (exec i s) (exec i (withGenBase base s)) := by
  cases i with
  | genrd d j => exact absurd rfl (hgenrd d j)
  | rsenc k e => exact absurd rfl (hrsenc k e)
  | rsencp n e => exact absurd rfl (hrsencp n e)
  | nop => exact sameUpTo_next rfl
  | setw n => exact sameUpTo_setw n rfl fun _ => rfl
  | gfexp | gflog | gfmul =>
    exact sameUpTo_withField rfl rfl fun w => sameUpTo_check rfl fun _ => sameUpTo_next rfl
  | genbld d =>
    refine sameUpTo_withField rfl rfl fun w => sameUpTo_check rfl fun _ => sameUpTo_next ?_
    rw [withGenBase_build, withGenBase_build]
    rfl

/-- The generator of degree 1 is [1, α^GEN_BASE]: its constant term tells the two values apart (R66). -/
theorem genPoly_one_constant (base : GenBase) (w : WordSize) : (genPoly base w 1).getD 1 0#12 = expElem w base.toNat := by
  rw [genPoly_constant, Nat.mul_one]
  rfl

end Sys2Proof.Machine
end

section
/-! PROOFS. The whole-machine rules (R7, R10, R16, R18 to R20, R28). -/

namespace Sys2Proof.Machine

/-- Settles O36: what each command can write, field by field. -/
theorem whoWritesWhat : Obligations.WhoWritesWhat := by
  unfold Obligations.WhoWritesWhat
  intro i s t hexec
  have h := commandEffect_of_exec hexec
  refine ⟨h.wsel.resolve_left, h.result.resolve_left, fun w hw => ?_, h.buf.resolve_left, h.frame⟩
  obtain hkept | ⟨hi, w', d, hsel, -, hbuilt⟩ := h.gendeg
  · exact absurd (hkept w) hw
  · refine ⟨?_, hi⟩
    obtain rfl : w = w' := by
      by_contra hne
      exact hw ((hbuilt w).trans (gendeg_build_other hne))
    exact hsel

/-- Settles O37: only the resets write a counter otherwise than by `build`, which raises it. -/
theorem countersNeverDecrease : Obligations.CountersNeverDecrease := by
  unfold Obligations.CountersNeverDecrease
  exact fun s t rest e w hreset h => (eventEffect_of_step h).gendeg_le hreset w

/-- Settles O38: each of the two states does what the state without caches does. -/
theorem cachesAreUnobservable : Obligations.CachesAreUnobservable := by
  unfold Obligations.CachesAreUnobservable
  intro i s u hsu
  obtain ⟨t, v, ht, hv, htv⟩ := exec_forgetCaches i s
  obtain ⟨t', v', ht', hv', htv'⟩ := exec_forgetCaches i u
  rw [hsu, hv'] at hv
  cases hv
  exact ⟨t, t', ht, ht', htv.trans htv'.symm⟩

/-- Settles O39: the laws of MemWrite, and MemRead as the words one by one. -/
theorem bufferReadAfterWrite : Obligations.BufferReadAfterWrite := by
  unfold Obligations.BufferReadAfterWrite
  refine ⟨fun s i a vs => ⟨fun j hj => ?_, bufRead_memWrite_outside s i vs,
    fun hwf hi => memory_wf_memWrite s i vs hi hwf⟩, fun s i n j hj => ⟨?_, memRead_length s i n⟩⟩
  · rw [bufRead_memWrite_inside s i vs hj, List.getD_eq_getElem _ _ hj]
  · simp [memRead, hj]

/-- Settles O59: no event changes GEN_BASE, no command but three reads it, and the generators of degree 1 differ. -/
theorem genBaseIsAParameter : Obligations.GenBaseIsAParameter := by
  unfold Obligations.GenBaseIsAParameter
  refine ⟨fun s t h => ?_, fun i s t base hgenrd hrsenc hrsencp h => ?_, fun s w hw => ?_⟩
  · obtain rfl | ⟨e, rest, -, hevent⟩ := step_inv h
    · rfl
    · exact hevent.genBase
  · obtain ⟨t', u, ht, hu, heq⟩ := exec_withGenBase hgenrd hrsenc hrsencp s base
    cases h.symm.trans ht
    obtain ⟨-, -, -, -, hbase⟩ := (commandEffect_of_exec hu).frame
    have hself : withGenBase base u = u := congrArg (fun b => { u with genBase := b }) hbase.symm
    exact hu.trans (congrArg Host.Outcome.next (hself.symm.trans heq.symm))
  · have hd : 1 ≤ w.degMax := by cases w <;> decide
    refine ⟨_, _, exec_genrd (s := withGenBase .zero s) hw hd (Nat.le_refl 1), ?_,
      exec_genrd (s := withGenBase .one s) hw hd (Nat.le_refl 1), ?_⟩
    · exact genPoly_one_constant .zero w
    · refine (genPoly_one_constant .one w).trans (BitVec.eq_of_toNat_eq ?_)
      rw [expElem_toNat]
      exact expTable_one w

end Sys2Proof.Machine
end

section
/-! SUPPORT. Sums of polynomials up to leading zeros (R63, R64), and the normal form of short remainders. -/

namespace Sys2Proof.Machine

theorem addInto_assoc (p q r : Poly) : addInto (addInto p q) r = addInto p (addInto q r) := by
  rw [addInto_comm, addInto_left_comm, addInto_comm r]

/-- A sequence added twice cancels. -/
theorem addInto_addInto_self {q p : Poly} (h : q.length ≤ p.length) : addInto q (addInto q p) = p := by
  rw [← addInto_assoc, addInto_self, addInto_zeros h]

theorem zipWith_eq_addInto {p q : Poly} (h : p.length = q.length) : List.zipWith gfAdd p q = addInto p q := by
  have hadd := zipWith_append_zeros (r := p) (ts := q) (n := 0) h
  rwa [zeros_zero, List.append_nil, addInto_comm] at hadd

theorem zeros_append_zeros (m n : Nat) : zeros m ++ zeros n = zeros (m + n) := List.replicate_append_replicate

@[simp] theorem polyNorm_zeros_append (n : Nat) (p : Poly) : polyNorm (zeros n ++ p) = polyNorm p := by
  induction n with
  | zero => rfl
  | succ n ih => rw [zeros_succ, List.cons_append, polyNorm_zero_cons, ih]

theorem polyNorm_of_normalised {p : Poly} (h : Normalised p) : polyNorm p = p := by
  by_cases hp : p = [0#12]
  · rw [hp]; rfl
  · obtain ⟨c, p', rfl, hc⟩ := h.exists_cons hp
    exact polyNorm_of_head p' hc

theorem allInField_polyNorm {w : WordSize} {p : Poly} (hp : allInField w p) : allInField w (polyNorm p) := by
  by_cases hnil : p = []
  · rw [hnil]
    exact allInField_zeros w 1
  · obtain ⟨n, hn⟩ := exists_eq_zeros_append_polyNorm hnil
    rw [hn] at hp
    exact (List.forall_mem_append.mp hp).2

/-- Leading zeros do not change a sequence padded to a given length. -/
theorem padLeft_zeros_append {N n : Nat} {p : Poly} (h : n + p.length ≤ N) : padLeft N (zeros n ++ p) = padLeft N p := by
  rw [padLeft, padLeft, ← List.append_assoc, zeros_append_zeros, List.length_append, zeros_length]
  congr 2
  omega

theorem padLeft_polyNorm {N : Nat} {p : Poly} (hN : 1 ≤ N) (hp : p.length ≤ N) : padLeft N (polyNorm p) = padLeft N p := by
  by_cases hnil : p = []
  · subst hnil
    exact (padLeft_zeros_append (n := 1) (p := []) hN)
  · obtain ⟨n, hn⟩ := exists_eq_zeros_append_polyNorm hnil
    have hlen := congrArg List.length hn
    rw [List.length_append, zeros_length] at hlen
    conv_rhs => rw [hn]
    exact (padLeft_zeros_append (by omega)).symm

/-- The sum is the same at any width that holds both summands (R64). -/
theorem polyAdd_eq_padLeft {N : Nat} {p q : Poly} (hp : p.length ≤ N) (hq : q.length ≤ N) :
    polyAdd p q = polyNorm (addInto (padLeft N p) (padLeft N q)) := by
  have hpad {a b : Poly} (ha : a.length ≤ N) (hb : b.length ≤ N) :
      padLeft N a = zeros (N - max a.length b.length) ++ padLeft b.length a := by
    rw [padLeft, padLeft, ← List.append_assoc, zeros_append_zeros]
    congr 2
    omega
  have hzeros (n : Nat) : List.zipWith gfAdd (zeros n) (zeros n) = zeros n := by
    have h := zipWith_zeros (zeros n)
    rwa [zeros_length] at h
  rw [← zipWith_eq_addInto (by simp [hp, hq]), hpad hp hq, hpad hq hp, Nat.max_comm q.length, List.zipWith_append (by simp),
    hzeros, polyNorm_zeros_append]
  rfl

theorem polyNorm_polyNorm (p : Poly) : polyNorm (polyNorm p) = polyNorm p :=
  polyNorm_of_normalised (normalised_polyNorm p)

/-- A sum depends on the normal forms of the summands only (R63, R64). -/
theorem polyAdd_congr {p p' q q' : Poly} (hp : polyNorm p = polyNorm p') (hq : polyNorm q = polyNorm q') :
    polyAdd p q = polyAdd p' q' := by
  have hpad {N : Nat} {a a' : Poly} (h : polyNorm a = polyNorm a') (hN : a.length + a'.length + 1 ≤ N) :
      padLeft N a = padLeft N a' := by
    rw [← padLeft_polyNorm (p := a) (by omega) (by omega), h, padLeft_polyNorm (by omega) (by omega)]
  have hwidth {N : Nat} (hN : p.length + p'.length + q.length + q'.length + 1 = N) : polyAdd p q = polyAdd p' q' := by
    rw [polyAdd_eq_padLeft (N := N) (by omega) (by omega), polyAdd_eq_padLeft (N := N) (by omega) (by omega),
      hpad hp (by omega), hpad hq (by omega)]
  exact hwidth rfl

theorem polyAdd_eq_addInto {p q : Poly} (h : p.length = q.length) : polyAdd p q = polyNorm (addInto p q) := by
  rw [polyAdd_of_length_eq h, zipWith_eq_addInto h]

/-- A product by a monic polynomial is its rows, up to leading zeros (R65). -/
theorem polyNorm_polyMul_monic (w : WordSize) (q gs : Poly) :
    polyNorm (polyMul w q (1#12 :: gs)) = polyNorm (mulRows w q (1#12 :: gs)) := by
  by_cases hq : q = [0#12]
  · subst hq
    rw [polyMul_zero_left, mulRows_cons_cons, gfMul_zero_left, map_gfMul_zero, mulRows, addInto_zeros (by simp)]
    exact (polyNorm_zeros (gs.length + 1)).symm
  · rw [polyMul_eq_mulRows w hq (cons_ne_zero_poly gs (by decide))]

@[simp] theorem mulRows_monic_length (w : WordSize) (q gs : Poly) :
    (mulRows w q (1#12 :: gs)).length = q.length + gs.length := by
  rw [mulRows_length w q (by simp), List.length_cons]
  omega

/-- A multiple of a monic polynomial plus a remainder, at fixed width. -/
theorem polyAdd_polyMul_monic (w : WordSize) (q : Poly) {gs r : Poly} (hr : r.length = gs.length) :
    polyAdd (polyMul w q (1#12 :: gs)) (polyNorm r) =
      polyNorm (addInto (zeros q.length ++ r) (mulRows w q (1#12 :: gs))) := by
  rw [polyAdd_congr (polyNorm_polyMul_monic w q gs)
    ((polyNorm_polyNorm r).trans (polyNorm_zeros_append q.length r).symm), polyAdd_eq_addInto (by simp [hr]),
    addInto_comm]

/-- A normalised polynomial that is [0] or has at most n coefficients is the normal form of n coefficients. -/
theorem exists_polyNorm_eq_of_short {w : WordSize} {r : Poly} {n : Nat} (hnorm : Normalised r) (hr : allInField w r)
    (hshort : r = [0#12] ∨ r.length ≤ n) : ∃ p, p.length = n ∧ allInField w p ∧ polyNorm p = r := by
  by_cases hzero : r = [0#12]
  · exact ⟨zeros n, zeros_length n, allInField_zeros w n, by rw [polyNorm_zeros, hzero]⟩
  · have hle := hshort.resolve_left hzero
    refine ⟨padLeft n r, by simp [hle], allInField_append (allInField_zeros w _) hr, ?_⟩
    rw [padLeft, polyNorm_zeros_append, polyNorm_of_normalised hnorm]

end Sys2Proof.Machine
end

section
/-! SUPPORT. The quotient of the division at fixed width, and the division by a divisor of any degree (R71). -/

namespace Sys2Proof.Machine

/-- The coefficients that n passes at fixed width take away, the quotient's. -/
def fixedWidthQuot (w : WordSize) (gs : Poly) : Nat → Poly → Poly
  | 0, _ => []
  | n + 1, p => p.headD 0#12 :: fixedWidthQuot w gs n (cancelHead w gs p)

@[simp] theorem fixedWidthQuot_length (w : WordSize) (gs p : Poly) (n : Nat) :
    (fixedWidthQuot w gs n p).length = n := by
  induction n generalizing p with
  | zero => rfl
  | succ n ih => rw [fixedWidthQuot, List.length_cons, ih]

theorem fixedWidthQuot_allInField {w : WordSize} {p : Poly} (gs : Poly) (n : Nat) (hp : allInField w p) :
    allInField w (fixedWidthQuot w gs n p) := by
  induction n generalizing p with
  | zero => exact List.forall_mem_nil _
  | succ n ih =>
    refine List.forall_mem_cons.mpr ⟨?_, ih (cancelHead_allInField gs hp)⟩
    cases p with
    | nil => exact size_pos w
    | cons x p => exact (List.forall_mem_cons.mp hp).1

/-- The dividend is quotient times divisor plus remainder (R71). -/
theorem addInto_fixedWidthRem_mulRows {w : WordSize} {gs p : Poly} {n : Nat} (hp : allInField w p)
    (hlen : p.length = n + gs.length) :
    addInto (zeros n ++ fixedWidthRem w gs n p) (mulRows w (fixedWidthQuot w gs n p) (1#12 :: gs)) = p := by
  induction n generalizing p with
  | zero =>
    rw [Nat.zero_add] at hlen
    rw [fixedWidthQuot, mulRows, fixedWidthRem_zero, zeros_zero, List.nil_append, addInto_comm]
    exact addInto_zeros (by simp [hlen])
  | succ n ih =>
    obtain ⟨x, p, rfl⟩ := List.exists_cons_of_length_pos (l := p) (by omega)
    have hrest : gs.length ≤ p.length := by rw [List.length_cons] at hlen; omega
    rw [fixedWidthQuot, List.headD_cons, mulRows_cons_cons,
      gfMul_one_right (List.forall_mem_cons.mp hp).1, fixedWidthRem_succ, zeros_succ, List.cons_append, addInto,
      zero_gfAdd, addInto_left_comm, ih (cancelHead_allInField gs hp) (cancelHead_length hlen), cancelHead,
      List.headD_cons, List.tail_cons, addInto_addInto_self (by simpa using hrest)]

/-- A multiple of the divisor leaves nothing (R71). -/
theorem fixedWidthRem_mulRows {w : WordSize} {q : Poly} (gs : Poly) (hq : allInField w q) :
    fixedWidthRem w gs q.length (mulRows w q (1#12 :: gs)) = zeros gs.length := by
  induction q with
  | nil => rfl
  | cons x q ih =>
    obtain ⟨hx, hq⟩ := List.forall_mem_cons.mp hq
    rw [List.length_cons, fixedWidthRem_succ, mulRows_cons_cons, gfMul_one_right hx, cancelHead, List.headD_cons, List.tail_cons,
      addInto_addInto_self (by simp), ih hq]

@[simp] theorem divisionPasses_zero_poly (w : WordSize) (g : Poly) (passes : Nat) :
    divisionPasses w g passes [0#12] = [0#12] := by
  cases passes with
  | zero => rfl
  | succ passes => exact if_pos (.inl rfl)

/-- The division by [1] takes a coefficient away at each pass and leaves [0] (R71). -/
theorem divisionPasses_one {w : WordSize} {p : Poly} {passes : Nat} (hp : allInField w p) (hnorm : Normalised p)
    (hpasses : p = [0#12] ∨ p.length ≤ passes) : divisionPasses w [1#12] passes p = [0#12] := by
  induction passes generalizing p with
  | zero =>
    obtain rfl | hle := hpasses
    · rfl
    · obtain rfl : p = [] := List.eq_nil_of_length_eq_zero (Nat.le_zero.mp hle)
      exact absurd rfl (hnorm.resolve_left (by decide))
  | succ passes ih =>
    by_cases hzero : p = [0#12]
    · rw [hzero, divisionPasses_zero_poly]
    · obtain ⟨x, p, rfl, hx⟩ := hnorm.exists_cons hzero
      obtain ⟨hfield, hp⟩ := List.forall_mem_cons.mp hp
      have hpass := polyAdd_polyScaleShift (gs := []) (n := p.length) hx hfield rfl
      rw [divisionPasses, if_neg (not_or.mpr ⟨hzero, by simp⟩), List.headD_cons]
      refine (congrArg (divisionPasses w [1#12] passes) hpass).trans (ih (allInField_polyNorm hp) (normalised_polyNorm p) ?_)
      by_cases hnil : p = []
      · exact .inl (by rw [hnil]; rfl)
      · exact .inr ((polyNorm_length_le hnil).trans (Nat.le_of_succ_le_succ (hpasses.resolve_left hzero)))

/-- poly_rem of a normalised polynomial by a monic divisor, of degree 0 too (R71). -/
theorem polyRem_polyNorm_monic {w : WordSize} {gs p : Poly} {n : Nat} (hp : allInField w p)
    (hlen : p.length = n + gs.length) :
    polyRem w (polyNorm p) (1#12 :: gs) = some (polyNorm (fixedWidthRem w gs n p)) := by
  by_cases hgs : gs = []
  · subst hgs
    rw [List.eq_nil_of_length_eq_zero (fixedWidthRem_length hlen), polyRem, if_neg (by decide),
      List.length_singleton, Nat.add_sub_cancel,
      divisionPasses_one (allInField_polyNorm hp) (normalised_polyNorm p) (.inr (Nat.le_refl _))]
    rfl
  · exact polyRem_polyNorm hgs hp hlen

/-- A divisor with leading coefficient 1. -/
theorem exists_eq_one_cons {g : Poly} (h : g.headD 0#12 = 1#12) : ∃ gs, g = 1#12 :: gs := by
  cases g with
  | nil => cases h
  | cons c gs => exact ⟨gs, congrArg (· :: gs) h⟩

end Sys2Proof.Machine
end

section
/-! PROOFS. The long division (R71). -/

namespace Sys2Proof.Machine

/-- Settles O51: at fixed width the dividend is quotient times divisor plus what is left, and the long division leaves its
normal form. -/
theorem divisionLeavesARemainder : Obligations.DivisionLeavesARemainder := by
  unfold Obligations.DivisionLeavesARemainder
  intro w a g hnorm ha hmonic _
  obtain ⟨gs, rfl⟩ := exists_eq_one_cons hmonic
  -- The dividend, written with at least as many coefficients as a remainder has.
  obtain ⟨p, hlen, hp, rfl⟩ := exists_polyNorm_eq_of_short hnorm ha (.inr (Nat.le_add_right a.length gs.length))
  set n := (polyNorm p).length
  have hrem : (fixedWidthRem w gs n p).length = gs.length := fixedWidthRem_length hlen
  refine ⟨_, polyRem_polyNorm_monic hp hlen, normalised_polyNorm _,
    allInField_polyNorm (fixedWidthRem_allInField gs n hp), ?_,
    fixedWidthQuot w gs n p, fixedWidthQuot_allInField gs n hp, ?_⟩
  · by_cases hnil : fixedWidthRem w gs n p = []
    · exact .inl (by rw [hnil]; rfl)
    · exact .inr (Nat.lt_succ_of_le (hrem ▸ polyNorm_length_le hnil))
  · rw [polyAdd_polyMul_monic w _ hrem, fixedWidthQuot_length, addInto_fixedWidthRem_mulRows hp hlen]

/-- Settles O52: the division at fixed width leaves nothing of the multiple of g, and r is added to what it leaves. -/
theorem remainderIsUnique : Obligations.RemainderIsUnique := by
  unfold Obligations.RemainderIsUnique
  intro w q g r hmonic _ hq _ hnorm hr hshort
  obtain ⟨gs, rfl⟩ := exists_eq_one_cons hmonic
  obtain ⟨p, hlen, hp, rfl⟩ := exists_polyNorm_eq_of_short hnorm hr (hshort.imp_right Nat.le_of_lt_succ)
  have hfield := allInField_addInto (allInField_append (allInField_zeros w q.length) hp)
    (allInField_mulRows w q (1#12 :: gs))
  rw [polyAdd_polyMul_monic w q hlen, polyRem_polyNorm_monic hfield (n := q.length) (by simp [hlen]),
    fixedWidthRem_addInto w gs p (by simp), fixedWidthRem_mulRows gs hq, addInto_comm, addInto_zeros (by omega)]

end Sys2Proof.Machine
end

section
/-! SUPPORT. The check words as a function of the data: leading zeros, sums, one word, the shift register, and the values at the
generator's roots (R72 to R74). -/

namespace Sys2Proof.Machine

/-- Leading zero words of the data do not change the check words (R72). -/
theorem rsCheck_zeros_append (base : GenBase) (w : WordSize) (n : Nat) (data : Poly) (e : Nat) :
    rsCheck base w (zeros n ++ data) e = rsCheck base w data e := by
  rw [rsCheck, rsCheck, polyNorm_zeros_append]

/-- All-zero data has all-zero check words (R72). -/
theorem rsCheck_zeros (base : GenBase) (w : WordSize) (n : Nat) {e : Nat} (he : 1 ≤ e) :
    rsCheck base w (zeros n) e = some (zeros e) := by
  have h := rsCheck_zeros_append base w n [] e
  rw [List.append_nil] at h
  exact h.trans (rsCheck_eq_checkWords base he (List.forall_mem_nil _))

/-- Two sums one after the other, where the first has summands of one length. -/
theorem addInto_append {p p' : Poly} (h : p.length = p'.length) (q q' : Poly) :
    addInto (p ++ q) (p' ++ q') = addInto p p' ++ addInto q q' := by
  induction p generalizing p' with
  | nil =>
    obtain rfl : p' = [] := List.eq_nil_of_length_eq_zero h.symm
    rfl
  | cons x p ih =>
    obtain ⟨y, p', rfl⟩ := List.exists_cons_of_length_pos (l := p') (h ▸ Nat.succ_pos _)
    rw [List.cons_append, List.cons_append, addInto, addInto, ih (Nat.succ.inj h), List.cons_append]

theorem map_gfMul_gfAdd {w : WordSize} {x y : Elem} {gs : Poly} (hx : x.toNat < 2 ^ w.bits) (hy : y.toNat < 2 ^ w.bits)
    (hgs : allInField w gs) :
    gs.map (gfMul w (gfAdd x y)) = addInto (gs.map (gfMul w x)) (gs.map (gfMul w y)) := by
  induction gs with
  | nil => rfl
  | cons g gs ih =>
    obtain ⟨hg, hgs⟩ := List.forall_mem_cons.mp hgs
    rw [List.map_cons, List.map_cons, List.map_cons, addInto, gfMul_gfAdd_left hx hy hg, ih hgs]

theorem addInto_addInto_comm (p q p' q' : Poly) :
    addInto (addInto p q) (addInto p' q') = addInto (addInto p p') (addInto q q') := by
  rw [addInto_assoc, addInto_left_comm q, ← addInto_assoc]

/-- A pass at fixed width is additive. -/
theorem cancelHead_addInto_field {w : WordSize} {gs p q : Poly} (hpos : p ≠ []) (hlen : p.length = q.length)
    (hgs : allInField w gs) (hp : allInField w p) (hq : allInField w q) :
    cancelHead w gs (addInto p q) = addInto (cancelHead w gs p) (cancelHead w gs q) := by
  obtain ⟨x, p, rfl⟩ := List.exists_cons_of_ne_nil hpos
  obtain ⟨y, q, rfl⟩ := List.exists_cons_of_length_pos (l := q) (hlen ▸ Nat.succ_pos _)
  have hhead := map_gfMul_gfAdd (List.forall_mem_cons.mp hp).1 (List.forall_mem_cons.mp hq).1 hgs
  rw [addInto, cancelHead, List.headD_cons, List.tail_cons, hhead, addInto_addInto_comm]
  rfl

/-- The division at fixed width is additive. -/
theorem fixedWidthRem_addInto_field {w : WordSize} {gs p q : Poly} {n : Nat} (hn : n ≤ p.length)
    (hlen : p.length = q.length) (hgs : allInField w gs) (hp : allInField w p) (hq : allInField w q) :
    fixedWidthRem w gs n (addInto p q) = addInto (fixedWidthRem w gs n p) (fixedWidthRem w gs n q) := by
  induction n generalizing p q with
  | zero => rfl
  | succ n ih =>
    have hpos : p ≠ [] := List.ne_nil_of_length_pos (Nat.zero_lt_of_lt hn)
    have hlength (a : Poly) : (cancelHead w gs a).length = max gs.length (a.length - 1) := by
      rw [cancelHead, addInto_length, List.length_map, List.length_tail]
    rw [fixedWidthRem_succ, cancelHead_addInto_field hpos hlen hgs hp hq]
    refine ih ?_ ?_ (cancelHead_allInField gs hp) (cancelHead_allInField gs hq)
    · rw [hlength]
      omega
    · rw [hlength, hlength, hlen]

theorem allInField_genPoly_tail (base : GenBase) (w : WordSize) (e : Nat) : allInField w (genPoly base w e).tail :=
  fun c hc => allInField_genPoly base w e c (List.mem_of_mem_tail hc)

/-- The check words of a sum of two messages of one length are the sum of their check words (R74 (a)). -/
theorem checkWords_addInto {w : WordSize} {x y : Poly} (base : GenBase) (e : Nat) (hlen : x.length = y.length)
    (hx : allInField w x) (hy : allInField w y) :
    checkWords base w (addInto x y) e = addInto (checkWords base w x e) (checkWords base w y e) := by
  have hzeros : addInto (zeros e) (zeros e) = zeros e := by rw [addInto_self, zeros_length]
  have hdata : addInto x y ++ zeros e = addInto (x ++ zeros e) (y ++ zeros e) := by rw [addInto_append hlen, hzeros]
  have hfield := allInField_zeros w e
  have hsum : (addInto x y).length = x.length := by rw [addInto_length, hlen, Nat.max_self]
  rw [checkWords, hdata, hsum,
    fixedWidthRem_addInto_field (by simp) (by simp [hlen]) (allInField_genPoly_tail base w e)
      (allInField_append hx hfield) (allInField_append hy hfield)]
  rw [checkWords, checkWords, hlen]

/-- The check words of a one-word message are the generator's other coefficients, times the word (R74 (c)). -/
theorem checkWords_singleton (base : GenBase) (w : WordSize) (c : Elem) (e : Nat) :
    checkWords base w [c] e = (genPoly base w e).tail.map (gfMul w c) := by
  change addInto ((genPoly base w e).tail.map (gfMul w c)) (zeros e) = _
  rw [addInto_comm]
  exact addInto_zeros (by rw [List.length_map, genPoly_tail_length])

/-- Zeros at the end of the shorter summand change nothing. -/
theorem addInto_append_zeros {p q : Poly} {n : Nat} (h : p.length + n ≤ q.length) :
    addInto (p ++ zeros n) q = addInto p q := by
  induction p generalizing q with
  | nil => exact addInto_zeros (by simpa using h)
  | cons x p ih =>
    obtain ⟨y, q, rfl⟩ := List.exists_cons_of_length_pos (l := q) (by rw [List.length_cons] at h; omega)
    rw [List.cons_append, addInto, addInto, ih (by simp only [List.length_cons] at h; omega)]

/-- The register's words are those still to be added to the coefficients behind the data (R74 (b)). -/
theorem foldl_shiftStep {w : WordSize} {gs reg : Poly} (data : Poly) (hpos : gs ≠ []) (hreg : reg.length = gs.length) :
    data.foldl (shiftStep w gs) reg = fixedWidthRem w gs data.length (addInto reg (data ++ zeros gs.length)) := by
  induction data generalizing reg with
  | nil =>
    rw [List.foldl_nil, List.length_nil, fixedWidthRem_zero, List.nil_append, addInto_comm, addInto_zeros (by omega)]
  | cons x data ih =>
    obtain ⟨r, reg, rfl⟩ := List.exists_cons_of_length_pos (l := reg) (hreg ▸ List.length_pos_iff.mpr hpos)
    have hlen : (reg ++ [0#12]).length = gs.length := by simpa using hreg
    have hshort : reg.length + 1 ≤ (data ++ zeros gs.length).length := by
      rw [List.length_append, zeros_length]
      rw [List.length_cons] at hreg
      omega
    -- The register moved by one place, and the multiple of the generator added to it.
    have hstep : shiftStep w gs (r :: reg) x = addInto (gs.map (gfMul w (gfAdd r x))) (reg ++ [0#12]) := by
      rw [shiftStep, List.headD_cons, List.tail_cons, zipWith_eq_addInto (by simpa using hlen), addInto_comm, gfAdd,
        BitVec.xor_comm]
      rfl
    have htail := addInto_append_zeros (p := reg) (q := data ++ zeros gs.length) (n := 1) hshort
    rw [List.foldl_cons, hstep, ih (by simp [hlen]), addInto_assoc]
    exact congrArg (fun p => fixedWidthRem w gs data.length (addInto (gs.map (gfMul w (gfAdd r x))) p)) htail

/-- The shift register computes the check words (R74 (b)). -/
theorem shiftRegister_eq_checkWords (base : GenBase) (w : WordSize) (data : Poly) {e : Nat} (he : 1 ≤ e) :
    shiftRegister base w data e = checkWords base w data e := by
  have htail := genPoly_tail_length base w e
  have h := foldl_shiftStep (w := w) (gs := (genPoly base w e).tail) (reg := zeros e) data
    (List.ne_nil_of_length_pos (by rw [htail]; exact he)) (by rw [zeros_length, htail])
  rw [htail, addInto_zeros (by simp)] at h
  exact h

end Sys2Proof.Machine
end

section
/-! SUPPORT. The division keeps the value at a root of the divisor (R73). -/

namespace Sys2Proof.Machine

/-- A pass at fixed width takes away a multiple of the divisor, which is 0 at the divisor's root. -/
theorem polyEval_cancelHead {w : WordSize} {gs p : Poly} {x : Elem} (hx : x.toNat < 2 ^ w.bits)
    (hroot : polyEval w (1#12 :: gs) x = 0#12) (hlen : gs.length < p.length) (hgs : allInField w gs)
    (hp : allInField w p) : polyEval w (cancelHead w gs p) x = polyEval w p x := by
  obtain ⟨c, p, rfl⟩ := List.exists_cons_of_length_pos (l := p) (Nat.zero_lt_of_lt hlen)
  obtain ⟨hc, hp⟩ := List.forall_mem_cons.mp hp
  obtain ⟨p₁, p₂, rfl, hp₁⟩ : ∃ p₁ p₂, p = p₁ ++ p₂ ∧ p₁.length = gs.length :=
    ⟨p.take gs.length, p.drop gs.length, (List.take_append_drop _ _).symm,
      List.length_take_of_le (Nat.le_of_lt_succ hlen)⟩
  have hfield := (List.forall_mem_append.mp hp).1
  have hmultiple : hornerFrom w x c (gs.map (gfMul w c)) = 0#12 := by
    have h := hornerFrom_map_gfMul hx hc (one_lt_size w) hgs
    rwa [← polyEval_cons w x 1#12, hroot, gfMul_zero_right, gfMul_one_right hc] at h
  have hsum : hornerFrom w x 0#12 (addInto (gs.map (gfMul w c)) p₁) = hornerFrom w x c p₁ := by
    have h := hornerFrom_addInto (by simp [hp₁]) hx hc hc (allInField_map_gfMul w c gs) hfield
    rwa [gfAdd_self, hmultiple, zero_gfAdd] at h
  have hsplit : cancelHead w gs (c :: (p₁ ++ p₂)) = addInto (gs.map (gfMul w c)) p₁ ++ p₂ := by
    have h := addInto_append (p := gs.map (gfMul w c)) (p' := p₁) (by simp [hp₁]) [] p₂
    rwa [List.append_nil] at h
  rw [hsplit, polyEval_eq_hornerFrom, hornerFrom_append, hsum, polyEval_cons, hornerFrom_append]

theorem polyEval_fixedWidthRem {w : WordSize} {gs p : Poly} {x : Elem} {n : Nat} (hx : x.toNat < 2 ^ w.bits)
    (hroot : polyEval w (1#12 :: gs) x = 0#12) (hlen : p.length = n + gs.length) (hgs : allInField w gs)
    (hp : allInField w p) : polyEval w (fixedWidthRem w gs n p) x = polyEval w p x := by
  induction n generalizing p with
  | zero => rfl
  | succ n ih =>
    rw [fixedWidthRem_succ, ih (cancelHead_length hlen) (cancelHead_allInField gs hp),
      polyEval_cancelHead hx hroot (by omega) hgs hp]

@[simp] theorem polyEval_zeros (w : WordSize) (n : Nat) (x : Elem) : polyEval w (zeros n) x = 0#12 := by
  induction n with
  | zero => rfl
  | succ n ih => rw [zeros_succ, polyEval_cons, ← polyEval_eq_hornerFrom, ih]

end Sys2Proof.Machine
end

section
/-! PROOFS. The check words (R72 to R74). -/

namespace Sys2Proof.Machine

/-- Settles O53: the check words are the e words left at fixed width, and rs_check begins by removing leading zeros. -/
theorem checkWordsHaveLengthE : Obligations.CheckWordsHaveLengthE := by
  unfold Obligations.CheckWordsHaveLengthE
  intro base w data e _ hdata he _
  have hcheck := rsCheck_eq_checkWords base he hdata
  refine ⟨_, hcheck, checkWords_length base w data e, checkWords_allInField base e hdata,
    fun n => (rsCheck_zeros_append base w n data e).trans hcheck, fun hzero => ?_⟩
  have hall : data = zeros data.length := List.eq_replicate_of_mem hzero
  rw [hall, rsCheck_zeros base w _ he, Option.some.injEq, ← hall] at hcheck
  exact hcheck.symm

/-- Settles O55: the division of the codeword by the generator leaves zeros, and no pass changes the value at a root. -/
theorem codewordVanishesAtTheRoots : Obligations.CodewordVanishesAtTheRoots := by
  unfold Obligations.CodewordVanishesAtTheRoots
  intro base w data e i _ hdata he _ hi
  refine ⟨checkWords base w data e, rsCheck_eq_checkWords base he hdata, ?_⟩
  have hroot := polyEval_genPoly_root base w hi
  rw [genPoly_eq_cons_tail] at hroot
  have hvalue := polyEval_fixedWidthRem (n := data.length) (p := data ++ checkWords base w data e) (expElem_lt w _) hroot
    (by rw [List.length_append, checkWords_length, genPoly_tail_length]) (allInField_genPoly_tail base w e)
    (allInField_append hdata (checkWords_allInField base e hdata))
  rw [← hvalue, fixedWidthRem_codeword, polyEval_zeros]

/-- Settles O56: the register holds what the passes of the division have added behind the data read so far. -/
theorem shiftRegisterComputesTheCheckWords : Obligations.ShiftRegisterComputesTheCheckWords := by
  unfold Obligations.ShiftRegisterComputesTheCheckWords
  intro base w data e _ hdata he _
  rw [rsCheck_eq_checkWords base he hdata, shiftRegister_eq_checkWords base w data he]

/-- Settles O57: every pass of the division is additive. -/
theorem checkWordsAreLinear : Obligations.CheckWordsAreLinear := by
  unfold Obligations.CheckWordsAreLinear
  intro base w x y e _ hlen hx hy he _
  refine ⟨_, _, rsCheck_eq_checkWords base he hx, rsCheck_eq_checkWords base he hy, ?_⟩
  rw [zipWith_eq_addInto hlen, zipWith_eq_addInto (by simp), rsCheck_eq_checkWords base he (allInField_addInto hx hy),
    checkWords_addInto base e hlen hx hy]

/-- Settles O58: for one word the division is one pass. -/
theorem singleWordCheckWords : Obligations.SingleWordCheckWords := by
  unfold Obligations.SingleWordCheckWords
  intro base w c e hc he _
  have hsingle {a : Elem} (ha : a.toNat < 2 ^ w.bits) :
      rsCheck base w [a] e = some ((genPoly base w e).tail.map (gfMul w a)) := by
    rw [rsCheck_eq_checkWords base he (List.forall_mem_singleton.mpr ha), checkWords_singleton]
  have hone : (genPoly base w e).tail.map (gfMul w 1#12) = (genPoly base w e).tail :=
    (List.map_congr_left fun a ha => gfMul_one_left (Nat.le_pred_of_lt (allInField_genPoly_tail base w e a ha))).trans
      (List.map_id _)
  refine ⟨?_, hsingle hc⟩
  rw [hsingle (one_lt_size w), hone]

end Sys2Proof.Machine
end

section
/-! SUPPORT. The encode commands in BUF (R10, R75, R76): what MemWrite does to the list, and the effect of an encode. -/

namespace Sys2Proof.Machine

/-- MemWrite writes BUF and nothing else (R10). -/
theorem memWrite_frame (s : State) (i : Nat) (vs : List Elem) :
    memWrite s i vs = { s with buf := (memWrite s i vs).buf } := by
  induction vs generalizing s i with
  | nil => rfl
  | cons v vs ih => exact ih (bufWrite s i v) (i + 1)

/-- What BUF's list holds after MemWrite. -/
theorem memory_read_memWrite (s : State) (i : Nat) (vs : List Elem) (a : Nat) :
    Memory.read? (memWrite s i vs).buf a =
      if i ≤ a ∧ a < i + vs.length then vs[a - i]? else Memory.read? s.buf a := by
  induction vs generalizing s i with
  | nil => rw [if_neg (by rw [List.length_nil]; omega)]; rfl
  | cons v vs ih =>
    rw [memWrite, ih, bufWrite_buf, List.length_cons]
    obtain hlt | rfl | hgt := Nat.lt_trichotomy a i
    · rw [if_neg (by omega), if_neg (by omega), memory_read_write_other _ _ hlt.ne]
    · rw [if_neg (by omega), if_pos (by omega), memory_read_write_same, Nat.sub_self, List.getElem?_cons_zero]
    · have hindex : a - i = a - (i + 1) + 1 := by omega
      rw [memory_read_write_other _ _ hgt.ne', hindex, List.getElem?_cons_succ]
      exact if_congr (by omega) rfl rfl

/-- MemWrite makes equal what differs in the words it writes only. -/
theorem memWrite_eq_memWrite {s t : State} {i : Nat} {vs : List Elem} (hframe : t = { s with buf := t.buf })
    (hs : Memory.wf s.buf = true) (ht : Memory.wf t.buf = true) (hi : i + vs.length ≤ 4096)
    (hbuf : ∀ a, ¬ (i ≤ a ∧ a < i + vs.length) → Memory.read? t.buf a = Memory.read? s.buf a) :
    memWrite t i vs = memWrite s i vs := by
  have hlist : (memWrite t i vs).buf = (memWrite s i vs).buf := by
    refine memory_ext (memory_wf_memWrite t i vs hi ht) (memory_wf_memWrite s i vs hi hs) fun a => ?_
    rw [memory_read_memWrite, memory_read_memWrite]
    exact ite_congr rfl (fun _ => rfl) (hbuf a)
  rw [memWrite_frame t, memWrite_frame s, hlist, hframe]

/-- MemWrite done again does nothing more. -/
theorem memWrite_memWrite_same {s : State} {i : Nat} {vs : List Elem} (hwf : Memory.wf s.buf = true)
    (hi : i + vs.length ≤ 4096) : memWrite (memWrite s i vs) i vs = memWrite s i vs :=
  memWrite_eq_memWrite (memWrite_frame s i vs) hwf (memory_wf_memWrite s i vs hi hwf) hi fun a ha => by
    rw [memory_read_memWrite, if_neg ha]

/-- MemRead reads back what MemWrite wrote (R10). -/
theorem memRead_memWrite_same (s : State) (i : Nat) (vs : List Elem) : memRead (memWrite s i vs) i vs.length = vs := by
  refine List.ext_getElem (by simp) fun j hj hj' => ?_
  rw [← bufRead_memWrite_inside s i vs hj']
  simp [memRead]

theorem build_bufWrite (s : State) (i : Nat) (v : Elem) (w : WordSize) (d : Nat) :
    build (bufWrite s i v) w d = bufWrite (build s w d) i v := by
  rw [build_eq, build_eq]
  cases w <;> rfl

theorem bufRead_build (s : State) (w : WordSize) (d i : Nat) : bufRead (build s w d) i = bufRead s i :=
  bufRead_congr i (build_buf s w d) (build_hardResets s w d)

/-- The operands and data that R75 admits pass its range checks. -/
theorem not_encodeOutOfRange {s : State} {w : WordSize} {k e : Nat} (he : e ≤ w.degMax) (hk : k + e ≤ 4096)
    (hdata : ∀ i < k, (bufRead s i).toNat < w.size) : ¬ EncodeOutOfRange s w k e := by
  rintro (he' | hk' | ⟨i, hi, hge⟩)
  · exact Nat.not_lt.mpr he he'
  · exact Nat.not_lt.mpr hk hk'
  · exact Nat.not_lt.mpr hge (hdata i hi)

/-- An encode's effect (R75): the check words go behind the data, the counter is raised, and nothing else changes. -/
theorem encodeBlock_effect {s : State} {w : WordSize} {k e : Nat} (he : e ≠ 0) (hdeg : e ≤ w.degMax)
    (hk : k + e ≤ 4096) (hdata : ∀ i < k, (bufRead s i).toNat < w.size) :
    ∃ (c : Poly) (t : State), rsCheck s.genBase w (memRead s 0 k) e = some c ∧ c.length = e ∧
      encodeBlock w k e s = .next t ∧ t = { raisedTo s w e with buf := t.buf } ∧
      (∀ j < e, bufRead t (k + j) = c.getD j 0#12) ∧ ∀ a : Nat, a < k ∨ k + e ≤ a → bufRead t a = bufRead s a := by
  have hpos := Nat.pos_of_ne_zero he
  have hlen := checkWords_length s.genBase w (memRead s 0 k) e
  refine ⟨_, _, rsCheck_eq_checkWords s.genBase hpos (allInField_memRead hdata), hlen,
    encodeBlock_eq hpos (not_encodeOutOfRange hdeg hk hdata), ?_, fun j hj => ?_, fun a ha => ?_⟩
  · rw [← build_eq_raisedTo]
    exact memWrite_frame _ _ _
  · rw [← hlen] at hj
    rw [bufRead_memWrite_inside _ _ _ hj, List.getD_eq_getElem _ _ hj]
  · rw [bufRead_memWrite_outside _ _ _ (by rwa [hlen]), bufRead_build]

/-- RSENCP's operands, its input test passed, are RSENC's (R76). -/
theorem exec_rsencp_eq_rsenc (s : State) {n e : Nat} (he : e ≠ 0) (hn : e < n) :
    exec (.rsencp n e) s = exec (.rsenc (n - e) e) s := by
  cases hs : s.wsel with
  | none => exact (withField_none hs _).trans (withField_none hs _).symm
  | some w => rw [exec_rsencp hs he hn, exec_rsenc hs he (Nat.sub_ne_zero_of_lt hn)]

/-- An encode does not depend on a word it overwrites (R76, U8). -/
theorem encodeBlock_bufWrite {s : State} {w : WordSize} {k e j : Nat} (v : Elem) (he : e ≠ 0) (hdeg : e ≤ w.degMax)
    (hk : k + e ≤ 4096) (hwf : Memory.wf s.buf = true) (hdata : ∀ i < k, (bufRead s i).toNat < w.size) (hj : k ≤ j)
    (hj' : j < k + e) : encodeBlock w k e (bufWrite s j v) = encodeBlock w k e s := by
  have hpos := Nat.pos_of_ne_zero he
  have hread {i : Nat} (hi : i < k) : bufRead (bufWrite s j v) i = bufRead s i :=
    bufRead_bufWrite_other s v (Nat.ne_of_lt (Nat.lt_of_lt_of_le hi hj))
  have hmessage : memRead (bufWrite s j v) 0 k = memRead s 0 k :=
    memRead_congr fun i hi => by rw [Nat.zero_add, hread hi]
  have hok := not_encodeOutOfRange (s := bufWrite s j v) hdeg hk fun i hi => by rw [hread hi]; exact hdata i hi
  rw [encodeBlock_eq hpos hok, encodeBlock_eq hpos (not_encodeOutOfRange hdeg hk hdata), hmessage, bufWrite_genBase,
    build_bufWrite]
  have hwf' : Memory.wf (build s w e).buf = true := by rw [build_buf]; exact hwf
  have hj4096 : j < Config.bufWords := Nat.lt_of_lt_of_le hj' hk
  refine congrArg _ (memWrite_eq_memWrite rfl hwf' (memory_wf_write v hj4096 hwf') (by simpa using hk) fun a ha => ?_)
  rw [bufWrite_buf, memory_read_write_other]
  rintro rfl
  exact ha ⟨hj, by rwa [checkWords_length]⟩

/-- An encode done again does nothing more (R74 (d)). -/
theorem encodeBlock_idempotent {s t : State} {w : WordSize} {k e : Nat} (he : e ≠ 0)
    (hok : ¬ EncodeOutOfRange s w k e) (hwf : Memory.wf s.buf = true) (ht : encodeBlock w k e s = .next t) :
    encodeBlock w k e t = .next t := by
  have hpos := Nat.pos_of_ne_zero he
  obtain ⟨hdeg, hk⟩ := le_of_not_encodeOutOfRange hok
  rw [encodeBlock_eq hpos hok, Host.Outcome.next.injEq] at ht
  have hread {i : Nat} (hi : i < k) : bufRead t i = bufRead s i := by
    rw [← ht, bufRead_memWrite_outside _ _ _ (.inl hi), bufRead_build]
  have hmessage : memRead t 0 k = memRead s 0 k := memRead_congr fun i hi => by rw [Nat.zero_add, hread hi]
  have hok' : ¬ EncodeOutOfRange t w k e := by
    rintro (hbad | hbad | ⟨i, hi, hge⟩)
    · exact hok (.inl hbad)
    · exact hok (.inr (.inl hbad))
    · exact hok (.inr (.inr ⟨i, hi, hread hi ▸ hge⟩))
  have hheld : build t w e = t := by
    refine build_of_le ?_
    rw [← ht, gendeg_memWrite, gendeg_build_of_le_degMax hdeg]
    exact Nat.le_max_right _ _
  have hbase : t.genBase = s.genBase := by rw [← ht, memWrite_genBase, build_genBase]
  rw [encodeBlock_eq hpos hok', hmessage, hheld, hbase, ← ht,
    memWrite_memWrite_same (by rw [build_buf]; exact hwf) (by rwa [checkWords_length])]

end Sys2Proof.Machine
end

section
/-! PROOFS. The encode commands (R74 (d), R75, R76). In the statements 2^w and 2^w - 2 stand written out for `WordSize.size` and
`WordSize.degMax`. -/

namespace Sys2Proof.Machine

/-- Settles O8: the five checks pass, so the check words are written and the counter is raised. -/
theorem rsencWritesTheCheckWords : Obligations.RsencWritesTheCheckWords := by
  unfold Obligations.RsencWritesTheCheckWords
  refine ⟨fun k e hk he => ?_, fun s w k e hw he hk hdeg hfits hdata => ?_⟩
  · exact decode_encode (i := .rsenc k e) (wellFormed_of_operands hk he)
  · rw [exec_rsenc hw he hk]
    exact encodeBlock_effect he hdeg hfits hdata

/-- Settles O9: with its input test passed RSENCP is RSENC of the data part. -/
theorem rsencpWritesTheCheckWords : Obligations.RsencpWritesTheCheckWords := by
  unfold Obligations.RsencpWritesTheCheckWords
  refine ⟨fun n e hn he => ?_, fun s n e he hn => exec_rsencp_eq_rsenc s he hn, fun s w n e hw he hn hdeg hfits hdata => ?_⟩
  · exact decode_encode (i := .rsencp n e) (wellFormed_of_operands hn he)
  · have hsum : n - e + e = n := Nat.sub_add_cancel (Nat.le_of_lt hn)
    have h := encodeBlock_effect (k := n - e) he hdeg (by omega) hdata
    rw [hsum] at h
    rw [exec_rsencp hw he hn]
    exact h

/-- Settles O10: a tail word is not among the data, and is overwritten by a check word. -/
theorem rsencpIgnoresTheTail : Obligations.RsencpIgnoresTheTail := by
  unfold Obligations.RsencpIgnoresTheTail
  intro s w n e j v hw he hn hdeg hfits hwf hdata hj hj'
  have hsum : n - e + e = n := Nat.sub_add_cancel (Nat.le_of_lt hn)
  rw [exec_rsencp (s := bufWrite s j v) hw he hn, exec_rsencp hw he hn]
  exact encodeBlock_bufWrite v he hdeg (by omega) hwf hdata hj (by omega)

/-- Settles O11: a fault does not change what the checks test; an encode that completed left its data alone, so it writes the
same words again. -/
theorem rsencIsIdempotent : Obligations.RsencIsIdempotent := by
  unfold Obligations.RsencIsIdempotent
  intro s t k e hwf ht
  cases hs : s.wsel with
  | none =>
    cases (withField_none_latched hs _).symm.trans ht
    exact withField_none_latched (s := latched s 1#4) hs _
  | some w =>
    by_cases hin : e = 0 ∨ k = 0
    · cases (exec_rsenc_invalidInput hs hin).symm.trans ht
      exact exec_rsenc_invalidInput (s := latched s 2#4) hs hin
    · obtain ⟨he, hk⟩ := not_or.mp hin
      rw [exec_rsenc hs he hk] at ht
      by_cases hbad : EncodeOutOfRange s w k e
      · cases (encodeBlock_range hbad).symm.trans ht
        exact (exec_rsenc (s := latched s 4#4) hs he hk).trans (encodeBlock_range (s := latched s 4#4) hbad)
      · have hsel : t.wsel = some w := by
          rw [encodeBlock_eq (Nat.pos_of_ne_zero he) hbad] at ht
          cases ht
          simpa using hs
        rw [exec_rsenc hsel he hk]
        exact encodeBlock_idempotent he hbad hwf ht

end Sys2Proof.Machine
end

section
/-! SUPPORT. Runs of the host's lines (R50): a command, a sequence of WBUF, ENCODE. -/

namespace Sys2Proof.Machine

theorem run_succ {s t : State} (h : step s = .next t) (k : Nat) :
    Host.Core.run Sys2Proof.core (k + 1) s = Host.Core.run Sys2Proof.core k t := by
  have hcore : Sys2Proof.core.step s = .next t := h
  simp only [Host.Core.run, hcore]

theorem step_of_pending {s : State} {e : BusEvent} {rest : List BusEvent} (hp : s.pending = e :: rest) :
    step s = step { s with pending := e :: rest } := by
  rw [← hp]

/-- A command line runs its command (R23, R50). -/
theorem step_command {s : State} {i : Instr} {rest : List BusEvent} (hp : s.pending = command i :: rest)
    (hr : s.inReset = false) (hf : s.fault = false) (hwf : i.wellFormed = true) :
    step s = exec i (answered s rest .written) := by
  rw [step_of_pending hp]
  exact step_commandWrite rest hr hf (decode_encode hwf)

/-- WBUF stores a word (R33, R50). -/
theorem step_wbuf {s : State} {i : Nat} {v : Word} {rest : List BusEvent} (hp : s.pending = wbuf i v :: rest)
    (hr : s.inReset = false) (hi : i < 4096) :
    step s = .next (bufWrite (answered s rest .written) i (v.setWidth 12)) := by
  rw [step_of_pending hp, wbuf, step_write rest _ hr (target_buf hi)]
  rfl

/-- MemWrite and the answers to the accesses that make it up. -/
theorem answered_memWrite_answered (s : State) (p p' : List BusEvent) (r r' : Response) (i : Nat) (vs : List Elem) :
    answered (memWrite (answered s p r) i vs) p' r' = answered (memWrite s i vs) p' r' := by
  induction vs generalizing s i with
  | nil => rfl
  | cons v vs ih => exact ih (bufWrite s i v) (i + 1)

/-- A sequence of WBUF is a MemWrite: only BUF, the store of events and the port's answer change. -/
theorem run_wbufs {s : State} {i n : Nat} {vs : List Word} {rest : List BusEvent} (hp : s.pending = wbufs i vs ++ rest)
    (hr : s.inReset = false) (hi : i + vs.length ≤ 4096) :
    ∃ r, Host.Core.run Sys2Proof.core (vs.length + n) s =
      Host.Core.run Sys2Proof.core n (answered (memWrite s i (vs.map (·.setWidth 12))) rest r) := by
  induction vs generalizing s i with
  | nil =>
    refine ⟨s.response, ?_⟩
    have hself : answered s rest s.response = s := congrArg (fun p => { s with pending := p }) hp.symm
    rw [List.map_nil, memWrite, hself, List.length_nil, Nat.zero_add]
  | cons v vs ih =>
    rw [List.length_cons] at hi
    have hstep := step_wbuf (rest := wbufs (i + 1) vs ++ rest) hp hr (by omega)
    obtain ⟨r, hrun⟩ := ih (s := bufWrite (answered s (wbufs (i + 1) vs ++ rest) .written) i (v.setWidth 12)) (i := i + 1)
      rfl hr (by omega)
    refine ⟨r, ?_⟩
    rw [List.length_cons, Nat.add_right_comm, run_succ hstep, hrun, List.map_cons, memWrite]
    exact congrArg _ (answered_memWrite_answered (bufWrite s i (v.setWidth 12)) _ _ _ _ _ _)

/-- The 12-bit words that WBUF stores of its data (R33). -/
def storedWords (data : List Word) : Poly := data.map (·.setWidth 12)

@[simp] theorem storedWords_length (data : List Word) : (storedWords data).length = data.length := List.length_map _

theorem storedWords_getElem (data : List Word) {i : Nat} (hi : i < data.length) :
    (storedWords data)[i]'(by simpa using hi) = (data.getD i 0#32).setWidth 12 := by
  rw [List.getD_eq_getElem _ _ hi]
  exact List.getElem_map _

/-- Bus words below 2^w are stored as they are. -/
theorem allInField_storedWords {w : WordSize} {data : List Word} (h : ∀ v ∈ data, v.toNat < 2 ^ w.bits) :
    allInField w (storedWords data) := by
  refine List.forall_mem_map.mpr fun v hv => ?_
  rw [BitVec.toNat_setWidth]
  exact (Nat.mod_le _ _).trans_lt (h v hv)

/-- The block with a field selected and the data in BUF, as ENCODE has it before the RSENC (R50). -/
def dataLoaded (s : State) (w : WordSize) (data : List Word) : State :=
  memWrite { s with wsel := some w } 0 (storedWords data)

theorem memRead_dataLoaded (s : State) (w : WordSize) (data : List Word) :
    memRead (dataLoaded s w data) 0 data.length = storedWords data := by
  have h := memRead_memWrite_same { s with wsel := some w } 0 (storedWords data)
  rwa [storedWords_length] at h

theorem bufRead_dataLoaded (s : State) (w : WordSize) (data : List Word) {i : Nat} (hi : i < data.length) :
    bufRead (dataLoaded s w data) i = (data.getD i 0#32).setWidth 12 := by
  have h := bufRead_memWrite_inside { s with wsel := some w } 0 (storedWords data) (j := i) (by simpa using hi)
  rw [Nat.zero_add] at h
  exact h.trans (storedWords_getElem data hi)

/-- ENCODE up to its RSENC. -/
theorem run_encodeMacro {s : State} {w : WordSize} {data : List Word} {e : Nat} (hf : s.fault = false)
    (hr : s.inReset = false) (hp : s.pending = encodeMacro w.bits data e) (hfits : data.length ≤ 4096) :
    ∃ r, Host.Core.run Sys2Proof.core (data.length + 2) s =
      Host.Core.run Sys2Proof.core 1 (answered (dataLoaded s w data) [command (.rsenc data.length e)] r) := by
  have hsetw : (Instr.setw w.bits).wellFormed = true := by cases w <;> decide
  have hselect := (step_command hp hr hf hsetw).trans (exec_setw_bits _ w)
  obtain ⟨r, hrun⟩ := run_wbufs (i := 0) (n := 1) (vs := data) (rest := [command (.rsenc data.length e)])
    (s := answered { s with wsel := some w } (wbufs 0 data ++ [command (.rsenc data.length e)]) .written) rfl hr (by omega)
  refine ⟨r, ?_⟩
  rw [run_succ hselect]
  exact hrun.trans (congrArg _ (answered_memWrite_answered _ _ _ _ _ _ _))

/-- ENCODE's RSENC, taken from the store of events. -/
theorem step_rsenc_dataLoaded {s : State} {w : WordSize} {data : List Word} {e : Nat} (r : Response)
    (hf : s.fault = false) (hr : s.inReset = false) (hne : data ≠ []) (he : e ≠ 0) (hfits : data.length + e ≤ 4096) :
    step (answered (dataLoaded s w data) [command (.rsenc data.length e)] r) =
      encodeBlock w data.length e (answered (dataLoaded s w data) [] .written) := by
  have hpos := List.length_pos_iff.mpr hne
  have hpos' := Nat.pos_of_ne_zero he
  have hrsenc : (Instr.rsenc data.length e).wellFormed = true :=
    wellFormed_of_operands (i := .rsenc data.length e) (lt_of_lt_of_le (Nat.lt_add_of_pos_right hpos') hfits)
      (lt_of_lt_of_le (Nat.lt_add_of_pos_left hpos) hfits)
  have hf' : (dataLoaded s w data).fault = false := (memWrite_fault _ _ _).trans hf
  have hr' : (dataLoaded s w data).inReset = false := (memWrite_inReset _ _ _).trans hr
  have hw : (dataLoaded s w data).wsel = some w := memWrite_wsel _ _ _
  exact (step_command (s := answered (dataLoaded s w data) [command (.rsenc data.length e)] r) rfl hr' hf' hrsenc).trans
    (exec_rsenc (s := answered (dataLoaded s w data) [] .written) hw he hpos.ne')

end Sys2Proof.Machine
end

section
/-! PROOFS. ENCODE leaves the codeword in BUF (R50). -/

namespace Sys2Proof.Machine

/-- Settles O30: SETW selects the field, the WBUFs are a MemWrite of the data, and RSENC's checks pass on it. -/
theorem encodeMacroLeavesTheCodeword : Obligations.EncodeMacroLeavesTheCodeword := by
  unfold Obligations.EncodeMacroLeavesTheCodeword
  intro s w data e hf hr hp hne he hdeg hfits hdata
  obtain ⟨r, hrun⟩ := run_encodeMacro hf hr hp (Nat.le_of_add_right_le hfits)
  have hfield : ∀ i < data.length, (bufRead (dataLoaded s w data) i).toNat < w.size := fun i hi => by
    rw [bufRead_dataLoaded s w data hi, ← storedWords_getElem data hi]
    exact allInField_storedWords hdata _ (List.getElem_mem _)
  obtain ⟨c, t, hc, -, ht, hframe, hcheck, hkept⟩ :=
    encodeBlock_effect (s := answered (dataLoaded s w data) [] .written) he hdeg hfits hfield
  have hmessage : memRead (answered (dataLoaded s w data) [] .written) 0 data.length = storedWords data :=
    memRead_dataLoaded s w data
  have hbase : (answered (dataLoaded s w data) [] .written).genBase = s.genBase := memWrite_genBase _ _ _
  rw [hmessage, hbase] at hc
  rw [← build_eq_raisedTo] at hframe
  refine ⟨t, c, ?_, hc, ?_, ?_, fun i hi => ?_, hcheck⟩
  · rw [hrun, run_succ ((step_rsenc_dataLoaded r hf hr hne he hfits).trans ht)]
    rfl
  · rw [hframe]
    exact (build_fault _ w e).trans ((memWrite_fault _ _ _).trans hf)
  · rw [hframe]
    exact build_pending _ w e
  · rw [hkept i (.inl hi)]
    exact bufRead_dataLoaded s w data hi

end Sys2Proof.Machine
end
